-- ==== Sys2Proof/Word.lean ====
section
/-! DEFINITION. The unsigned values the codec handles: nibble, byte (a data byte or a symbol) and operation code
(spec/00_scope.md R6, R11; spec/30_encoding.md R60, R68). Lengths, capacities, sizes, offsets and addresses are `Nat`:
the spec's arithmetic on them is exact (R11, R27). -/

namespace Sys2Proof

/-- A 4-bit unsigned value, half of a byte (R6, R15). -/
abbrev Nibble := BitVec 4

/-- An 8-bit unsigned value: a data byte, a received symbol, or an element of a buffer (R6, R15). -/
abbrev Byte := BitVec 8

/-- The 3-bit operation code `OP[2:0]` (R60). -/
abbrev OpCode := BitVec 3

end Sys2Proof
end

