-- ==== Sys2Proof/Syntax.lean ====
section
/-! DEFINITION. The six commands as a type (spec/30_encoding.md R61, spec/10_state.md R31) and a command as the host
presents it, on the ports (R21). -/

namespace Sys2Proof

/-- A command of the opcode table with exactly its own operands (R21, R61). `src` and `dst` are the addresses of offset
0 of the source and of the destination buffer in the host's memory: the spec knows a buffer by its offsets only (R49)
and the model adds the two addresses so that overlap (R55) and reuse of a buffer (R165) can be said
(DESIGN CHOICE, safe: notes/assumptions/6.md). -/
inductive Instr where
  /-- `ENC_NIBBLE`: operand `N` (R85). -/
  | encNibble (n : Nibble)
  /-- `DEC_SYMBOL`: operand `B` (R89). -/
  | decSymbol (b : Byte)
  /-- `ENC_SIZE`: operand `LEN` (R100). -/
  | encSize (len : Nat)
  /-- `DEC_SIZE`: operand `LEN` (R120). -/
  | decSize (len : Nat)
  /-- `ENCODE`: `LEN` = `S`, `CAP` = `C`, `SRC` of `S` bytes at `src`, `DST` of `C` bytes at `dst` (R102). -/
  | encode (len cap src dst : Nat)
  /-- `DECODE`: the same ports (R122). -/
  | decode (len cap src dst : Nat)
  deriving DecidableEq, Repr

/-- The mnemonic of spec/opcode_table.json. -/
def Instr.mnemonic : Instr → String
  | .encNibble _ => "ENC_NIBBLE"
  | .decSymbol _ => "DEC_SYMBOL"
  | .encSize _ => "ENC_SIZE"
  | .decSize _ => "DEC_SIZE"
  | .encode _ _ _ _ => "ENCODE"
  | .decode _ _ _ _ => "DECODE"

/-- A command as presented on the input ports of R21. A port that the command does not use is ignored. `len` and `cap`
are numbers; that they fit the `LEN_BITS` bits of their ports is `Instr.wellFormed` (R27). -/
structure Ports where
  op  : OpCode
  n   : Nibble
  b   : Byte
  len : Nat
  cap : Nat
  src : Nat
  dst : Nat
  deriving DecidableEq, Repr, Inhabited

/-- Why the decoder rejects what is on the ports. -/
inductive DecodeError where
  /-- `OP` is 6 or 7 (R64). -/
  | reservedOp (op : OpCode)
  deriving DecidableEq, Repr

end Sys2Proof
end

