-- ==== Sys2Proof/WellFormed.lean ====
section
/-! DEFINITION. Which operands fit the ports (spec/10_state.md R21, R27). `N` and `B` fit by their types; `LEN` and `CAP`
are `LEN_BITS` wide. -/

namespace Sys2Proof

/-- `v` fits a port `bits` wide: `0 <= v < 2^bits` (R27). Zero is tested first, since it fits every port. -/
def fitsPort (bits v : Nat) : Bool :=
  v == 0 || decide (v < 2 ^ bits)

/-- Every length and capacity operand fits its `lenBits` wide port (R21, R27). The two addresses are on no port of
the spec and have no bound (R49). -/
def Instr.wellFormed (lenBits : Nat) : Instr → Bool
  | .encNibble _ => true
  | .decSymbol _ => true
  | .encSize len => fitsPort lenBits len
  | .decSize len => fitsPort lenBits len
  | .encode len cap _ _ => fitsPort lenBits len && fitsPort lenBits cap
  | .decode len cap _ _ => fitsPort lenBits len && fitsPort lenBits cap

end Sys2Proof
end

