-- ==== Sys2Proof/Decode.lean ====
section
/-! DEFINITION. From the ports to a command and back (spec/30_encoding.md R60 to R64). Decoding looks at `OP` alone and
is total: six commands, and two reserved codes that are rejected by name. -/

namespace Sys2Proof

/-- The command on the ports (R61, R63), or the reserved code (R64). -/
def decodePorts (p : Ports) : Except DecodeError Instr :=
  match p.op.toNat with
  | 0 => .ok (.encNibble p.n)
  | 1 => .ok (.decSymbol p.b)
  | 2 => .ok (.encSize p.len)
  | 3 => .ok (.decSize p.len)
  | 4 => .ok (.encode p.len p.cap p.src p.dst)
  | 5 => .ok (.decode p.len p.cap p.src p.dst)
  | _ => .error (.reservedOp p.op)

/-- Ports that carry `op` and zero everywhere else. -/
def Ports.idle (op : OpCode) : Ports :=
  { op := op, n := 0, b := 0, len := 0, cap := 0, src := 0, dst := 0 }

/-- The operation code of a command (R61). -/
def Instr.opCode : Instr → OpCode
  | .encNibble _ => 0b000
  | .decSymbol _ => 0b001
  | .encSize _ => 0b010
  | .decSize _ => 0b011
  | .encode _ _ _ _ => 0b100
  | .decode _ _ _ _ => 0b101

/-- The encoder: the ports that present a command, zero on every port the command does not use (R61, R62). -/
def encodePorts (i : Instr) : Ports :=
  match i with
  | .encNibble n => { Ports.idle i.opCode with n := n }
  | .decSymbol b => { Ports.idle i.opCode with b := b }
  | .encSize len => { Ports.idle i.opCode with len := len }
  | .decSize len => { Ports.idle i.opCode with len := len }
  | .encode len cap src dst => { Ports.idle i.opCode with len := len, cap := cap, src := src, dst := dst }
  | .decode len cap src dst => { Ports.idle i.opCode with len := len, cap := cap, src := src, dst := dst }

/-- The ports carry the command `i`: its operation code, and its operands on the ports it uses. Nothing is said of the
other ports, which the command ignores (R21). -/
def Ports.carries (p : Ports) (i : Instr) : Prop :=
  p.op = i.opCode ∧
    match i with
    | .encNibble n => p.n = n
    | .decSymbol b => p.b = b
    | .encSize len => p.len = len
    | .decSize len => p.len = len
    | .encode len cap src dst => p.len = len ∧ p.cap = cap ∧ p.src = src ∧ p.dst = dst
    | .decode len cap src dst => p.len = len ∧ p.cap = cap ∧ p.src = src ∧ p.dst = dst

/-- The ports for a word of spec/opcode_table.json: its low `nbits` bits, of which `OP[2:0]` are bits 2 to 0 (the rows'
mask is `0x7`), and zero on every operand port, for the table gives operands no bits (R60; DEDUCED, safe:
notes/assumptions/11.md). -/
def Ports.ofTableWord (nbits w : Nat) : Ports :=
  Ports.idle (BitVec.ofNat 3 (w % 2 ^ nbits))

/-- What the decoder reads from a word of the opcode table. -/
def decodeTableWord (nbits w : Nat) : Option Instr :=
  match decodePorts (Ports.ofTableWord nbits w) with
  | .ok i => some i
  | .error _ => none

end Sys2Proof
end

