-- ==== Sys2Proof/Config.lean ====
section
/-! DEFINITION. What one implementation of the codec fixes for good (spec/00_scope.md R7): the two tables, the width of
lengths, the odd-length policy and the packing order; and the values the spec leaves open, as constants with no body. -/

namespace Sys2Proof

/-- How `DECODE` treats an odd source length (`ODD_LEN_POLICY`, spec/42_decode.md R125). -/
inductive OddLenPolicy where
  | refuse
  | ignoreTrailing
  deriving DecidableEq, Repr, Inhabited

/-- Which half of a packed reverse-table byte serves the even byte value (`PACK_ORDER`, spec/40_code_table.md R90). -/
inductive PackOrder where
  | evenHigh
  | evenLow
  deriving DecidableEq, Repr, Inhabited

/-- The two constant tables (spec/10_state.md R24): `sym` has a symbol for each of the 16 nibbles, `dec` a nibble for
each of the 256 byte values. Totality and the ranges of both are the types' (R80, R83, R87). -/
structure Tables where
  sym : Vector Byte 16
  dec : Vector Nibble 256
  deriving DecidableEq, Repr, Inhabited

/-- The configuration of the block (R7, R16): fixed for a whole run and the same for every command. -/
structure Config where
  tables       : Tables
  lenBits      : Nat
  oddLenPolicy : OddLenPolicy
  packOrder    : PackOrder
  deriving DecidableEq, Repr, Inhabited

/-- The contents of `SYM` and `DEC`, which the spec does not give (R7, decision D7): no body, so nothing can be proved
of a value of it (notes/assumptions/2.md). -/
opaque Config.givenTables : Tables

/-- One less than `LEN_BITS`, a positive integer the spec leaves open (R7, R27, decision D3): no body. -/
opaque Config.givenLenBitsPred : Nat

/-- `PACK_ORDER`, which the spec leaves open (R7, R90, decision D14): no body. -/
opaque Config.givenPackOrder : PackOrder

end Sys2Proof
end

