-- ==== Sys2Proof/Machine/Tables.lean ====
section
/-! DEFINITION. The code table: look-ups (spec/40_code_table.md R80, R83), the named predicates over the two tables
(R87), Hamming distance (spec/00_scope.md R12), the packed form of the reverse table (R90), and the configuration the
machine is built with. -/

namespace Sys2Proof

/-- `SYM[n]`, the codeword of `n` (R80). -/
def Tables.symbol (t : Tables) (n : Nibble) : Byte :=
  t.sym[n.toNat]

/-- `DEC[b]` (R83). -/
def Tables.nibble (t : Tables) (b : Byte) : Nibble :=
  t.dec[b.toNat]

/-- `hd(a, b)`: the number of bit positions in which `a` and `b` differ (R12). -/
def hammingDistance (a b : Byte) : Nat :=
  (List.range 8).countP fun k => a.getLsbD k != b.getLsbD k

/-- `b XOR 2^k`: `b` with bit `k` flipped (R87, R188). -/
def flipBit (b : Byte) (k : Nat) : Byte :=
  b ^^^ BitVec.twoPow 8 k

/-- The two entries of `SYM` the document gives (R82). -/
abbrev Tables.Fixed (t : Tables) : Prop :=
  t.symbol 0xA = 0xAA ∧ t.symbol 0x5 = 0x55

/-- P1 (R81): no two nibbles share a symbol. -/
abbrev Tables.Injective (t : Tables) : Prop :=
  ∀ n m : Nibble, n ≠ m → t.symbol n ≠ t.symbol m

/-- P2 (R84): decoding the codeword of a nibble gives the nibble. -/
abbrev Tables.RoundTrip (t : Tables) : Prop :=
  ∀ n : Nibble, t.nibble (t.symbol n) = n

/-- P3 (R86): `DEC[b]` names a codeword at minimum distance from `b`. Not part of `WF`: a claim assumes it by name. -/
abbrev Tables.Nearest (t : Tables) : Prop :=
  ∀ (b : Byte) (m : Nibble), hammingDistance b (t.symbol (t.nibble b)) ≤ hammingDistance b (t.symbol m)

/-- `TablesWF` (R87): what the document calls invariants, assumed of every configuration. -/
abbrev Tables.WF (t : Tables) : Prop :=
  t.Fixed ∧ t.Injective ∧ t.RoundTrip

/-- `SingleBitCorrecting` (R87); not asserted of the hardware (R88). -/
abbrev Tables.SingleBitCorrecting (t : Tables) : Prop :=
  ∀ (n : Nibble) (k : Fin 8), t.nibble (flipBit (t.symbol n) k) = n

/-- The 16 nibbles in ascending order. -/
def allNibbles : List Nibble :=
  (List.range 16).map (BitVec.ofNat 4)

/-- `MinDist(SYM)`: the least distance between the codewords of two different nibbles (R87). Two bytes are at most 8
apart, so the fold may start at 8. -/
def Tables.minDist (t : Tables) : Nat :=
  allNibbles.foldl (fun acc n =>
    (allNibbles.filter (· != n)).foldl (fun acc m => min acc (hammingDistance (t.symbol n) (t.symbol m))) acc) 8

/-- `b` is a codeword: `SYM[n]` for some nibble `n` (R15). -/
def Tables.isCodeword (t : Tables) (b : Byte) : Bool :=
  allNibbles.any fun n => t.symbol n == b

/-- A configuration the spec admits: well-formed tables and a positive `LEN_BITS` (R7, R87). -/
abbrev Config.WF (c : Config) : Prop :=
  c.tables.WF ∧ 1 ≤ c.lenBits

/-- The stored form `PK` of the reverse table: 128 bytes, two results a byte (R90). -/
abbrev PackedTable := Vector Byte 128

/-- `PK`, a function of `DEC` and `PACK_ORDER` (R90). -/
def Tables.pack (t : Tables) (order : PackOrder) : PackedTable :=
  Vector.ofFn fun k =>
    let even := t.nibble (BitVec.ofNat 8 (2 * k.val))
    let odd := t.nibble (BitVec.ofNat 8 (2 * k.val + 1))
    match order with
    | .evenHigh => even ++ odd
    | .evenLow => odd ++ even

/-- The stored byte `PK[b[7:1]]` that holds the result for `b` (R90). -/
def PackedTable.stored (pk : PackedTable) (b : Byte) : Byte :=
  pk[b.toNat / 2]'(by have := b.isLt; omega)

/-- `DEC[b]` read from the stored form: `b[0]` picks the half of `PK[b[7:1]]` (R90). -/
def PackedTable.lookup (pk : PackedTable) (order : PackOrder) (b : Byte) : Nibble :=
  let high := (pk.stored b).extractLsb' 4 4
  let low := (pk.stored b).extractLsb' 0 4
  match order with
  | .evenHigh => if b.getLsbD 0 then low else high
  | .evenLow => if b.getLsbD 0 then high else low

/-- A made-up table that meets `Tables.WF`: `SYM[n] = n :: n` and `DEC[b] = b[7:4]`. It shows that the constraints can
hold together and stands in `Config.device` only to make that definition total; it is not the hardware's table
(notes/assumptions/2.md). -/
def Tables.repetition : Tables where
  sym := Vector.ofFn fun n => BitVec.ofNat 8 (17 * n.val)
  dec := Vector.ofFn fun b => BitVec.ofNat 4 (b.val / 16)

/-- The configuration the machine is built with, and holds at reset (R30). The tables are the open ones whenever those
are well-formed, which is what R87 assumes of every configuration: `Config.givenTables` has no body, so what is proved
of `device` holds for every well-formed pair of tables. `LEN_BITS` is any positive number, the odd-length policy is the
spec's default (R7, R125). DESIGN CHOICE, safe: notes/assumptions/2.md and 3.md. -/
def Config.device : Config where
  tables := if Config.givenTables.WF then Config.givenTables else Tables.repetition
  lenBits := Config.givenLenBitsPred + 1
  oddLenPolicy := .refuse
  packOrder := Config.givenPackOrder

end Sys2Proof
end

