-- ==== Sys2Proof/Machine/State.lean ====
section
/-! DEFINITION. The state of the codec and its host (spec/10_state.md R20 to R31, spec/70_reset_and_hazards.md R160, R167,
R172). The block has no register, program counter, flag, mode or control register (R20, R22 to R24, R28): what there is
are the constant tables and parameters it was built with, the host's memory in which the buffers lie, what the host
presents, and the results returned. -/

namespace Sys2Proof.Machine

/-- The host's memory: the bytes that differ from what an unlisted address reads as, by strictly rising address
(`Memory.wf` in Machine/Ops.lean). The source and destination buffers of a command are regions of it. -/
abbrev Memory := List Host.Cell

/-- The value a completed command drives on its result port (R21, R26). A command drives one port only, so a port
that was not driven has no value here (R21, R30). -/
inductive Result where
  /-- `SYM_OUT`, 8 bits, of `ENC_NIBBLE`. -/
  | symOut (v : Byte)
  /-- `NIB_OUT`, 4 bits, of `DEC_SYMBOL`. -/
  | nibOut (v : Nibble)
  /-- `SIZE_OUT`, `LEN_BITS + 1` bits, of `ENC_SIZE` and `DEC_SIZE`. -/
  | sizeOut (v : Nat)
  /-- `RET`, `LEN_BITS` bits, of `ENCODE` and `DECODE`. -/
  | ret (v : Nat)
  deriving DecidableEq, Repr

/-- What the host does between commands (R172; notes/assumptions/8.md). -/
inductive HostInput where
  /-- The host presents a command on the ports. -/
  | command (p : Ports)
  /-- The host writes bytes into its own memory, starting at `addr`: it fills a source buffer, or plays the channel. -/
  | store (addr : Nat) (bytes : List Byte)
  deriving DecidableEq, Repr

/-- The whole state. -/
structure State where
  /-- `SYM`, `DEC` (and through them `PK`), `LEN_BITS`, `ODD_LEN_POLICY`, `PACK_ORDER`: read only, no step changes it
  (R7, R24, R25; notes/assumptions/1.md). -/
  cfg : Config
  /-- The host's memory, with the `SRC` and `DST` buffers in it (R40 to R42). -/
  mem : Memory
  /-- What the host still presents, first to come first (R51, R167). -/
  inputs : List HostInput
  /-- The results returned so far, oldest first (R26, R167). The block never reads them (R29). -/
  results : List Result
  deriving DecidableEq, Repr

/-- No command raises an exception and the block has no fault (spec/60_exceptions.md R140; spec/00_scope.md R17), so there
is no constructor: no step can answer a fault. -/
inductive Fault
  deriving DecidableEq, Repr

/-- Why a command has no meaning in the model (R13). None is a value or a silent no-op. -/
inductive Refusal where
  /-- Raised by an arm of `exec` for an instruction that has no meaning yet: by none now. Safe. -/
  | notModelled (mnemonic : String)
  /-- Raised by `fetch`: `OP` is 6 or 7 (spec/30_encoding.md R64). Safe. -/
  | reservedOp (op : OpCode)
  /-- Raised by `fetch`: `LEN` or `CAP` does not fit its `LEN_BITS` bits, so it cannot stand on the port (R21, R27).
  Safe. -/
  | operandTooWide
  /-- Raised by `ENCODE` and `DECODE`: the source and the destination region share an address (spec/20_memory.md R55).
  Safe. -/
  | overlap
  /-- Raised by `DECODE`: the source length is odd and `ODD_LEN_POLICY` is `refuse` (spec/42_decode.md R125). Safe. -/
  | oddLength
  deriving DecidableEq, Repr

/-- The machine right after reset (R30, R160): the tables hold their constants, the block is idle with nothing presented
and no result driven. The memory is the host's and no cell of it is listed (notes/assumptions/7.md). -/
def State.reset : State where
  cfg := Config.device
  mem := []
  inputs := []
  results := []

end Sys2Proof.Machine
end

