-- ==== Sys2Proof/Machine/Ops.lean ====
section
/-! DEFINITION. The named operations over memory and state (spec/00_scope.md R12, spec/20_memory.md R43, R44). All accesses
are single bytes (R47, R48). There is no exception to take and none to return from (spec/60_exceptions.md R140, R147,
R149): the one failure is a result (R141). -/

namespace Sys2Proof.Machine

/-- What an address that is not listed reads as: the contents of the host's memory before anything was written, which
the spec gives to nobody (R30). DESIGN CHOICE, unsafe: notes/assumptions/7.md. -/
def Memory.unlisted : Byte := 0

/-- The canonical form: addresses strictly rising, no entry equal to what an unlisted address reads as. -/
abbrev Memory.wf (m : Memory) : Prop :=
  m.Pairwise (fun x y => x.1 < y.1) ∧ ∀ c ∈ m, c.2 ≠ Memory.unlisted

/-- The byte at address `a`. No side effect (R43). -/
def Memory.read : Memory → Nat → Byte
  | [], _ => Memory.unlisted
  | (b, v) :: m, a => if a = b then v else if a < b then Memory.unlisted else Memory.read m a

/-- The memory with `v` at address `a` and nothing else changed (R44), in canonical form. -/
def Memory.write : Memory → Nat → Byte → Memory
  | [], a, v => if v = Memory.unlisted then [] else [(a, v)]
  | (b, w) :: m, a, v =>
    if a < b then
      if v = Memory.unlisted then (b, w) :: m else (a, v) :: (b, w) :: m
    else if a = b then
      if v = Memory.unlisted then m else (a, v) :: m
    else (b, w) :: Memory.write m a v

/-- The contents of the region of `n` bytes at `base`, offset 0 first (R41, R42). -/
def Memory.readBytes (m : Memory) (base n : Nat) : List Byte :=
  (List.range n).map fun k => m.read (base + k)

/-- The memory with the bytes `bs` at `base`, `base + 1`, and so on. -/
def Memory.writeBytes (m : Memory) : Nat → List Byte → Memory
  | _, [] => m
  | base, v :: bs => (m.write base v).writeBytes (base + 1) bs

/-- `s` with another memory. -/
def State.setMem (s : State) (m : Memory) : State :=
  { s with mem := m }

/-- `s` with the result `r` returned by a command that completes (R26). -/
def State.respond (s : State) (r : Result) : State :=
  { s with results := s.results ++ [r] }

/-- `s` with `is` still to be presented. -/
def State.setInputs (s : State) (is : List HostInput) : State :=
  { s with inputs := is }

/-- The result of the command that completed last, if one has. -/
def State.lastResult (s : State) : Option Result :=
  s.results.getLast?

end Sys2Proof.Machine
end

