-- ==== Sys2Proof/Machine/Operands.lean ====
section
/-! DEFINITION. What the commands compute from their operands: the split of a byte and the joining of two nibbles
(spec/00_scope.md R10, spec/30_encoding.md R62), the required output sizes (spec/41_encode.md R101, spec/42_decode.md
R121), and the two conditions under which a buffer command is refused (spec/20_memory.md R55, spec/42_decode.md R125).
All of it is exact (R11, R104, R124). -/

namespace Sys2Proof.Machine

/-- `b[7:4]` (R10). -/
def highNibble (b : Byte) : Nibble := b.extractLsb' 4 4

/-- `b[3:0]` (R10). -/
def lowNibble (b : Byte) : Nibble := b.extractLsb' 0 4

/-- `h :: l`, that is `16*h + l` (R10). -/
def joinNibbles (h l : Nibble) : Byte := h ++ l

/-- `encoded_size(n) = 2n` (R100): also the `need` of `ENCODE` (R101). -/
def encodedSize (n : Nat) : Nat := 2 * n

/-- `decoded_size(n) = floor(n/2)` (R120): also the `need` of `DECODE` (R121). -/
def decodedSize (n : Nat) : Nat := n / 2

/-- How many source bytes a `DECODE` of length `n` has, where it is not refused for that length: `n` if `n` is even, and
the first `n - 1` if it is odd, since under `ignore_trailing` it behaves exactly as a `DECODE` of those (R125). -/
def decodeSourceSize (n : Nat) : Nat := 2 * decodedSize n

/-- The source region of `len` bytes at `src` and the destination region of `cap` bytes at `dst` have an address in
common (R55). An empty region has no address, so it overlaps nothing (notes/assumptions/6.md). -/
def overlaps (len cap src dst : Nat) : Bool :=
  decide (max src dst < min (src + len) (dst + cap))

/-- `DECODE` is refused for the length of its source: `len` is odd and the policy is `refuse` (R125). -/
def oddRefused (policy : OddLenPolicy) (len : Nat) : Bool :=
  len % 2 == 1 && policy == .refuse

end Sys2Proof.Machine
end

