-- ==== Sys2Proof/Machine/Flags.lean ====
section
/-! DEFINITION. Status. The block has no flag, condition code or predicate register (spec/10_state.md R23); the one status
is inside a buffer command's result. This file holds the derived predicate of R23 and the result it shows in. -/

namespace Sys2Proof.Machine

/-- `failed(cmd) := C < need` (R23): the capacity guard, which looks at the two sizes only (R101, R121, R141). -/
def capacityFails (need cap : Nat) : Bool :=
  decide (cap < need)

/-- `RET` of a buffer command: 0 on capacity failure, else `need` (R26, R141). -/
def returnedCount (need cap : Nat) : Nat :=
  if capacityFails need cap then 0 else need

end Sys2Proof.Machine
end

