-- ==== Sys2Proof/Machine/Codec.lean ====
section
/-! DEFINITION. The two transfer loops over memory, as the pseudocode of spec/41_encode.md R102 and spec/42_decode.md R122
has them, and the same transforms as functions of byte sequences (R103, R123), for use in claims. -/

namespace Sys2Proof.Machine

/-- Iteration `i` of `ENCODE`'s loop: read one byte, write two symbols, the high nibble's first (R102). -/
def encodeIteration (t : Tables) (src dst : Nat) (m : Memory) (i : Nat) : Memory :=
  let b := m.read (src + i)
  (m.write (dst + 2 * i) (t.symbol (highNibble b))).write (dst + (2 * i + 1)) (t.symbol (lowNibble b))

/-- `ENCODE`'s loop over `i = 0 .. len-1` ascending (R102). -/
def encodeLoop (t : Tables) (len src dst : Nat) (m : Memory) : Memory :=
  (List.range len).foldl (encodeIteration t src dst) m

/-- Iteration `j` of `DECODE`'s loop: read a pair of symbols, write one byte, the first symbol's nibble high (R122). -/
def decodeIteration (t : Tables) (src dst : Nat) (m : Memory) (j : Nat) : Memory :=
  let h := t.nibble (m.read (src + 2 * j))
  let l := t.nibble (m.read (src + (2 * j + 1)))
  m.write (dst + j) (joinNibbles h l)

/-- `DECODE`'s loop over `j = 0 .. need-1` ascending (R122). -/
def decodeLoop (t : Tables) (need src dst : Nat) (m : Memory) : Memory :=
  (List.range need).foldl (decodeIteration t src dst) m

/-- `enc(src)` (R103). -/
def enc (t : Tables) : List Byte → List Byte
  | [] => []
  | b :: bs => t.symbol (highNibble b) :: t.symbol (lowNibble b) :: enc t bs

/-- `dec(src)` (R123). On a sequence of odd length the last byte is dropped, as `ignore_trailing` has it (R125). -/
def dec (t : Tables) : List Byte → List Byte
  | s0 :: s1 :: ss => joinNibbles (t.nibble s0) (t.nibble s1) :: dec t ss
  | _ => []

/-- `ENCODE(src, DST_before)` as the pair `RET`, `DST_after`; `C` is the length of `dstBefore` (R103). -/
def encodeBuffer (t : Tables) (src dstBefore : List Byte) : Nat × List Byte :=
  if capacityFails (encodedSize src.length) dstBefore.length then (0, dstBefore)
  else (encodedSize src.length, enc t src ++ dstBefore.drop (encodedSize src.length))

/-- `DECODE(src, DST_before)` as the pair `RET`, `DST_after` (R123). -/
def decodeBuffer (t : Tables) (src dstBefore : List Byte) : Nat × List Byte :=
  if capacityFails (decodedSize src.length) dstBefore.length then (0, dstBefore)
  else (decodedSize src.length, dec t src ++ dstBefore.drop (decodedSize src.length))

end Sys2Proof.Machine
end

