-- ==== Sys2Proof/Machine/Buffer.lean ====
section
/-! DEFINITION. The meanings of the two buffer commands, `ENCODE` and `DECODE` (spec/41_encode.md R101, R102;
spec/42_decode.md R121, R122, R125). The order of the checks is that of spec/60_exceptions.md R146: the refusals, then the
capacity guard, then the loop. -/

namespace Sys2Proof.Machine

/-- The part the two commands share: the capacity guard before anything else (R101, R121), then the transfer. On
capacity failure `RET = 0` and nothing else changes (R141); on success all writes are made and `RET = need`. -/
def transfer (need cap : Nat) (loop : Memory → Memory) (s : State) : Host.Outcome State Fault Refusal :=
  if capacityFails need cap then .next (s.respond (.ret 0))
  else .next ((s.setMem (loop s.mem)).respond (.ret need))

/-- `ENCODE` (R102); refused if the two regions overlap (R55). -/
def execEncode (len cap src dst : Nat) (s : State) : Host.Outcome State Fault Refusal :=
  if overlaps len cap src dst then .refused .overlap
  else transfer (encodedSize len) cap (encodeLoop s.cfg.tables len src dst) s

/-- `DECODE` (R122, R125); refused if `len` is odd under `ODD_LEN_POLICY = refuse`, or if the two regions overlap (R55).
Under `ignore_trailing` an odd `len` is exactly as `len - 1` (R125): the last byte is never read, and as it is no part of
the source of that `DECODE`, a destination may share it (DEDUCED, notes/assumptions/18.md). -/
def execDecode (len cap src dst : Nat) (s : State) : Host.Outcome State Fault Refusal :=
  if oddRefused s.cfg.oddLenPolicy len then .refused .oddLength
  else if overlaps (decodeSourceSize len) cap src dst then .refused .overlap
  else transfer (decodedSize len) cap (decodeLoop s.cfg.tables (decodedSize len) src dst) s

end Sys2Proof.Machine
end

