-- ==== Sys2Proof/Machine/CodeTable.lean ====
section
/-! DEFINITION. The meanings of the two table commands, `ENC_NIBBLE` and `DEC_SYMBOL` (spec/40_code_table.md R85, R89). -/

namespace Sys2Proof.Machine

/-- `SYM_OUT <- SYM[N]`; cannot fail (R85). -/
def execEncNibble (n : Nibble) (s : State) : Host.Outcome State Fault Refusal :=
  .next (s.respond (.symOut (s.cfg.tables.symbol n)))

/-- `NIB_OUT <- DEC[B]`; cannot fail, for any operand (R89). -/
def execDecSymbol (b : Byte) (s : State) : Host.Outcome State Fault Refusal :=
  .next (s.respond (.nibOut (s.cfg.tables.nibble b)))

end Sys2Proof.Machine
end

