-- ==== Sys2Proof/Machine/Sizes.lean ====
section
/-! DEFINITION. The meanings of the two size commands, `ENC_SIZE` and `DEC_SIZE` (spec/41_encode.md R100,
spec/42_decode.md R120). -/

namespace Sys2Proof.Machine

/-- `SIZE_OUT <- 2 * LEN`, exact (R100). -/
def execEncSize (len : Nat) (s : State) : Host.Outcome State Fault Refusal :=
  .next (s.respond (.sizeOut (encodedSize len)))

/-- `SIZE_OUT <- floor(LEN / 2)`, for odd `LEN` too (R120). -/
def execDecSize (len : Nat) (s : State) : Host.Outcome State Fault Refusal :=
  .next (s.respond (.sizeOut (decodedSize len)))

end Sys2Proof.Machine
end

