-- ==== Sys2Proof/Machine/Dispatch.lean ====
section
/-! DEFINITION. One arm per command of spec/opcode_table.json. -/

namespace Sys2Proof.Machine

def exec (i : Instr) (s : State) : Host.Outcome State Fault Refusal :=
  match i with
  | .encNibble n => Sys2Proof.Machine.execEncNibble n s
  | .decSymbol b => Sys2Proof.Machine.execDecSymbol b s
  | .encSize len => Sys2Proof.Machine.execEncSize len s
  | .decSize len => Sys2Proof.Machine.execDecSize len s
  | .encode len cap src dst => Sys2Proof.Machine.execEncode len cap src dst s
  | .decode len cap src dst => Sys2Proof.Machine.execDecode len cap src dst s

end Sys2Proof.Machine
end

