-- ==== Sys2Proof/Machine/Fetch.lean ====
section
/-! DEFINITION. What the block takes next from the host. There is no program counter and no instruction memory
(spec/10_state.md R22, spec/20_memory.md R54): commands are presented by the host, one at a time and in order (R51). -/

namespace Sys2Proof.Machine

/-- What stands first among the host's inputs. -/
inductive Fetched where
  /-- Nothing is presented: the block is idle (R160). -/
  | idle
  /-- The host wrote its memory, which leaves this state. -/
  | stored (s : State)
  /-- The command to run, and the state in which it is no longer among the inputs. -/
  | command (i : Instr) (s : State)
  /-- The command is refused before its meaning is looked at (R146, step 1). -/
  | refused (r : Refusal)
  deriving DecidableEq, Repr

/-- Decode what is on the ports (R63, R64) and check that the operands fit them (R27). -/
def accept (lenBits : Nat) (p : Ports) : Except Refusal Instr :=
  match decodePorts p with
  | .error (.reservedOp op) => .error (.reservedOp op)
  | .ok i => if i.wellFormed lenBits then .ok i else .error .operandTooWide

/-- Take the first of the host's inputs. -/
def fetch (s : State) : Fetched :=
  match s.inputs with
  | [] => .idle
  | .store addr bytes :: rest => .stored ((s.setMem (s.mem.writeBytes addr bytes)).setInputs rest)
  | .command p :: rest =>
    match accept s.cfg.lenBits p with
    | .ok i => .command i (s.setInputs rest)
    | .error r => .refused r

/-- The host presents one more command, after all it has presented already (R167). -/
def State.present (s : State) (p : Ports) : State :=
  s.setInputs (s.inputs ++ [.command p])

end Sys2Proof.Machine
end

