-- ==== Sys2Proof/Machine/Step.lean ====
section
/-! DEFINITION. One step: one command, complete and atomic (spec/00_scope.md R9, spec/20_memory.md R50), or one store of
the host into its own memory, or nothing when the host presents nothing (spec/70_reset_and_hazards.md R160, R167). -/

namespace Sys2Proof.Machine

def step (s : State) : Host.Outcome State Fault Refusal :=
  match fetch s with
  | .idle => .next s
  | .stored s' => .next s'
  | .command i s' => exec i s'
  | .refused r => .refused r

/-- `s` with the command of a word of the opcode table presented first (notes/assumptions/12.md). -/
def State.withFetchWord (s : State) (nbits w : Nat) : State :=
  s.setInputs (.command (Ports.ofTableWord nbits w) :: s.inputs)

end Sys2Proof.Machine
end

