-- ==== Sys2Proof/Machine/Accesses.lean ====
section
/-! DEFINITION. Which spaces a command reaches, in program order (spec/20_memory.md R40, R48, R50; the work of
spec/70_reset_and_hazards.md R166). The accesses are seen by no one (R48, decision D12), so the step does not return them;
they are a function of the command and the state it starts from, for claims about order and number. -/

namespace Sys2Proof.Machine

/-- One access to one of the four spaces of R40. -/
inductive Access where
  /-- `MemRead(SRC:offset, 1)` (R43). -/
  | readSrc (offset : Nat)
  /-- `MemWrite(DST:offset, 1, v)` (R44). -/
  | writeDst (offset : Nat) (v : Byte)
  /-- The look-up `SYM[n]`. -/
  | readSym (n : Nibble)
  /-- The look-up `DEC[b]`. -/
  | readDec (b : Byte)
  deriving DecidableEq, Repr

/-- Iteration `i` of `ENCODE` on a source whose first byte is at `src` (R102). -/
def encodeIterationAccesses (t : Tables) (src : Nat) (m : Memory) (i : Nat) : List Access :=
  let hi := highNibble (m.read (src + i))
  let lo := lowNibble (m.read (src + i))
  [.readSrc i, .readSym hi, .writeDst (2 * i) (t.symbol hi), .readSym lo, .writeDst (2 * i + 1) (t.symbol lo)]

/-- Iteration `j` of `DECODE` (R122). -/
def decodeIterationAccesses (t : Tables) (src : Nat) (m : Memory) (j : Nat) : List Access :=
  let s0 := m.read (src + 2 * j)
  let s1 := m.read (src + (2 * j + 1))
  [.readSrc (2 * j), .readSrc (2 * j + 1), .readDec s0, .readDec s1,
    .writeDst j (joinNibbles (t.nibble s0) (t.nibble s1))]

/-- Every access of a command, in program order: none on capacity failure and none on refusal (R48). -/
def accesses (i : Instr) (s : State) : List Access :=
  match i with
  | .encNibble n => [.readSym n]
  | .decSymbol b => [.readDec b]
  | .encSize _ => []
  | .decSize _ => []
  | .encode len cap src dst =>
    if overlaps len cap src dst || capacityFails (encodedSize len) cap then []
    else (List.range len).flatMap (encodeIterationAccesses s.cfg.tables src s.mem)
  | .decode len cap src dst =>
    if oddRefused s.cfg.oddLenPolicy len || overlaps (decodeSourceSize len) cap src dst ||
        capacityFails (decodedSize len) cap then []
    else (List.range (decodedSize len)).flatMap (decodeIterationAccesses s.cfg.tables src s.mem)

/-- The offset of a source read. -/
def Access.sourceRead? : Access → Option Nat
  | .readSrc o => some o
  | _ => none

/-- The offset of a destination write. -/
def Access.destinationWrite? : Access → Option Nat
  | .writeDst o _ => some o
  | _ => none

/-- The access is a table look-up. -/
def Access.isLookup : Access → Bool
  | .readSym _ => true
  | .readDec _ => true
  | _ => false

/-- What an access does to the memory, for a destination buffer at `dst`: only a write changes it (R43, R44). -/
def Access.perform (dst : Nat) (m : Memory) : Access → Memory
  | .writeDst o v => m.write (dst + o) v
  | _ => m

end Sys2Proof.Machine
end

