-- ==== Sys2Proof/Safety.lean ====
section
/-! DEFINITION. The terms in which claims speak of a command's outcome, of the regions it reaches, and of a state as the
spec admits it. -/

namespace Sys2Proof.Machine

/-- A result fits its port (spec/10_state.md R21, R27). -/
def Result.fits (lenBits : Nat) : Result → Bool
  | .symOut _ => true
  | .nibOut _ => true
  | .sizeOut v => decide (v < 2 ^ (lenBits + 1))
  | .ret v => decide (v < 2 ^ lenBits)

/-- A state the spec admits: a well-formed configuration (R87), memory in canonical form, and every result returned so
far within its port (R27). -/
abbrev State.Inv (s : State) : Prop :=
  s.cfg.WF ∧ s.mem.wf ∧ ∀ r ∈ s.results, r.fits s.cfg.lenBits = true

/-- `n` steps one after the other, ended by the first refusal (R167): `Host.Core.run` for this machine. -/
def run : Nat → State → Host.Outcome State Fault Refusal
  | 0, s => .next s
  | n + 1, s =>
    match step s with
    | .next t => run n t
    | .fault r => .fault r
    | .refused r => .refused r

/-- The three outcomes of a command (spec/00_scope.md R13). -/
inductive CommandOutcome where
  | succeeds
  | failsOnCapacity
  | refused
  deriving DecidableEq, Repr

/-- The rows of the outcome table for the six commands, as it is printed (spec/60_exceptions.md R157); the rows for the
two reserved codes concern no `Instr`. In the row of an odd length under `ignore_trailing` the source is the
first `len - 1` bytes, as R125 says (DEDUCED, notes/assumptions/18.md). -/
def tableOutcome (policy : OddLenPolicy) : Instr → CommandOutcome
  | .encNibble _ => .succeeds
  | .decSymbol _ => .succeeds
  | .encSize _ => .succeeds
  | .decSize _ => .succeeds
  | .encode len cap src dst =>
    if overlaps len cap src dst then .refused
    else if cap < 2 * len then .failsOnCapacity
    else .succeeds
  | .decode len cap src dst =>
    if len % 2 = 1 ∧ policy = .refuse then .refused
    else if overlaps (decodeSourceSize len) cap src dst then .refused
    else if cap < len / 2 then .failsOnCapacity
    else .succeeds

/-- The result of a command that succeeds (R85, R89, R100, R102, R120, R122). -/
def successResult (t : Tables) : Instr → Result
  | .encNibble n => .symOut (t.symbol n)
  | .decSymbol b => .nibOut (t.nibble b)
  | .encSize len => .sizeOut (2 * len)
  | .decSize len => .sizeOut (len / 2)
  | .encode len _ _ _ => .ret (2 * len)
  | .decode len _ _ _ => .ret (len / 2)

/-- A region of the host's memory: `size` bytes from `base` on. -/
structure Region where
  base : Nat
  size : Nat
  deriving DecidableEq, Repr

/-- The address lies in the region. -/
abbrev Region.holds (r : Region) (a : Nat) : Prop :=
  r.base ≤ a ∧ a < r.base + r.size

/-- The regions have no address in common. -/
abbrev Region.disjoint (r q : Region) : Prop :=
  ∀ a, ¬ (r.holds a ∧ q.holds a)

/-- The source buffer of a command (R41). -/
def sourceRegion : Instr → Region
  | .encode len _ src _ => ⟨src, len⟩
  | .decode len _ src _ => ⟨src, len⟩
  | _ => ⟨0, 0⟩

/-- The destination buffer of a command (R42). -/
def destinationRegion : Instr → Region
  | .encode _ cap _ dst => ⟨dst, cap⟩
  | .decode _ cap _ dst => ⟨dst, cap⟩
  | _ => ⟨0, 0⟩

/-- The bytes a command that completes has stored to: the first `RET` bytes of its destination (R48). -/
def storedRegion : Instr → Region
  | .encode len cap _ dst => ⟨dst, returnedCount (encodedSize len) cap⟩
  | .decode len cap _ dst => ⟨dst, returnedCount (decodedSize len) cap⟩
  | _ => ⟨0, 0⟩

/-- `s` built with another packing order (R90). -/
def State.withPackOrder (s : State) (order : PackOrder) : State :=
  { s with cfg := { s.cfg with packOrder := order } }

/-- `s` built with another forward table (R92). -/
def State.withForwardTable (s : State) (sym : Vector Byte 16) : State :=
  { s with cfg := { s.cfg with tables := { s.cfg.tables with sym := sym } } }

/-- The outcome with `f` applied to its next state. -/
def mapNext (f : State → State) : Host.Outcome State Fault Refusal → Host.Outcome State Fault Refusal
  | .next s => .next (f s)
  | .fault r => .fault r
  | .refused r => .refused r

/-- Two commands whose buffers obey R56: neither writes into a buffer of the other. -/
abbrev independent (i j : Instr) : Prop :=
  (destinationRegion i).disjoint (sourceRegion j) ∧ (destinationRegion i).disjoint (destinationRegion j) ∧
    (destinationRegion j).disjoint (sourceRegion i)

end Sys2Proof.Machine
end

