-- ==== Sys2Proof/Certificates/Slice0/Obligations.lean ====
section
/-! DEFINITION. The statements for the provers, in the order of the numbered rules they come from: encoding, the step and
its inputs, reset and invariants, the two tables and their commands, the size commands, `ENCODE`, `DECODE`, outcomes,
frames and isolation, and the laws of the codec. -/

open Sys2Proof Sys2Proof.Machine

/-! ### Encoding and decoding of commands -/

/-- R61, R64: the six operation codes in the order of the table and the two reserved ones. That a word of the table
carries zero on every operand port is the model's own reading (notes/assumptions/11.md, DEDUCED): the table gives operands
no bits. -/
def Obligations.OpcodeTableWords : Prop :=
  decodeTableWord 8 0b000 = some (.encNibble 0) ∧ decodeTableWord 8 0b001 = some (.decSymbol 0) ∧
  decodeTableWord 8 0b010 = some (.encSize 0) ∧ decodeTableWord 8 0b011 = some (.decSize 0) ∧
  decodeTableWord 8 0b100 = some (.encode 0 0 0 0) ∧ decodeTableWord 8 0b101 = some (.decode 0 0 0 0) ∧
  decodeTableWord 8 0b110 = none ∧ decodeTableWord 8 0b111 = none

/-- R60 to R64, R21: the decoder gives a command exactly where the ports carry it, every command survives encoding and
decoding with every operand, and what is rejected is exactly the two reserved codes. -/
def Obligations.DecodeEncodeAgree : Prop :=
  (∀ (p : Ports) (i : Instr), decodePorts p = .ok i ↔ p.carries i) ∧
  (∀ i : Instr, decodePorts (encodePorts i) = .ok i) ∧
  (∀ p : Ports, (∃ e, decodePorts p = .error e) ↔ p.op = 6 ∨ p.op = 7)

/-- R63: decoding is total and looks at `OP` alone. -/
def Obligations.DecodingLooksAtOpAlone : Prop :=
  (∀ p : Ports, (∃ i, decodePorts p = .ok i ∧ i.opCode = p.op) ∨
    (decodePorts p = .error (.reservedOp p.op) ∧ (p.op = 6 ∨ p.op = 7))) ∧
  (∀ (p q : Ports) (i : Instr), p.op = q.op → decodePorts p = .ok i →
    ∃ j, decodePorts q = .ok j ∧ j.opCode = i.opCode ∧ j.mnemonic = i.mnemonic)

/-! ### The step, reset and invariants -/

/-- R64: a command with a reserved operation code is refused, and there are no other spare codes. -/
def Obligations.ReservedOpRefused : Prop :=
  (∀ (s : State) (p : Ports) (rest : List HostInput), s.inputs = .command p :: rest → p.op = 6 ∨ p.op = 7 →
    step s = .refused (.reservedOp p.op)) ∧
  (∀ p : Ports, ¬(p.op = 6 ∨ p.op = 7) → ∃ i, decodePorts p = .ok i)

/-- R9, R50, R51: a step runs the first command presented, which leaves the inputs before its meaning is applied (the list
of inputs is notes/assumptions/8.md, the premise that the operands fit their ports notes/assumptions/4.md). The second
clause rests on no rule and is the model's own choice: that a word of the opcode table placed by `withFetchWord` is
the command the next step runs (notes/assumptions/12.md, DESIGN CHOICE), with the word read as in notes/assumptions/11.md
(DEDUCED). -/
def Obligations.StepRunsDecodedCommand : Prop :=
  (∀ (s : State) (p : Ports) (rest : List HostInput) (i : Instr), s.inputs = .command p :: rest →
    decodePorts p = .ok i → i.wellFormed s.cfg.lenBits = true → step s = exec i (s.setInputs rest)) ∧
  (∀ (s : State) (nbits w : Nat) (i : Instr), decodeTableWord nbits w = some i →
    step (s.withFetchWord nbits w) = exec i s)

/-- The model's own choice (notes/assumptions/4.md): a command whose length or capacity does not fit its port (R27) is
refused. -/
def Obligations.StepRefusesWideOperands : Prop :=
  ∀ (s : State) (p : Ports) (rest : List HostInput) (i : Instr), s.inputs = .command p :: rest →
    decodePorts p = .ok i → i.wellFormed s.cfg.lenBits = false → step s = .refused .operandTooWide

/-- The model's own choice (notes/assumptions/8.md): with nothing presented a step changes nothing (R160: the block is
idle), and a store of the host puts exactly its bytes into the host's memory. -/
def Obligations.IdleAndHostStore : Prop :=
  (∀ s : State, s.inputs = [] → step s = .next s) ∧
  (∀ (s : State) (addr : Nat) (bytes : List Byte) (rest : List HostInput), s.inputs = .store addr bytes :: rest →
    s.mem.wf → ∃ t, step s = .next t ∧ t.cfg = s.cfg ∧ t.inputs = rest ∧ t.results = s.results ∧
      t.mem.readBytes addr bytes.length = bytes ∧
      ∀ a, ¬(addr ≤ a ∧ a < addr + bytes.length) → t.mem.read a = s.mem.read a)

/-- R30, R160: after reset the tables hold a well-formed content and nothing is presented or driven. That memory reads as
zero, and that the policy is the default one, are the model's choices (notes/assumptions/7.md and 3.md). -/
def Obligations.ResetState : Prop :=
  State.reset.cfg.tables.WF ∧ 1 ≤ State.reset.cfg.lenBits ∧ State.reset.cfg.oddLenPolicy = .refuse ∧
  State.reset.inputs = [] ∧ State.reset.results = [] ∧ ∀ a, State.reset.mem.read a = 0

/-- The reset state meets the invariant. -/
def Obligations.ResetMeetsInv : Prop :=
  State.reset.Inv

/-- R24, R27, R87: every step keeps the invariant: the configuration stays well-formed, the memory stays in canonical
form and every result fits its port. -/
def Obligations.StepKeepsInv : Prop :=
  ∀ s t : State, s.Inv → step s = .next t → t.Inv

/-- R24, R25, R91: no run changes the tables or another parameter. -/
def Obligations.RunsKeepConfiguration : Prop :=
  ∀ (k : Nat) (s t : State), run k s = .next t → t.cfg = s.cfg

/-- R167: when as many steps are made as the host has inputs, nothing is left to present, one result was returned for
each command, and the block stays as it is; and a run through a refused command has no final state (R13). -/
def Obligations.RunEndsWithInputs : Prop :=
  (∀ s t : State, run s.inputs.length s = .next t →
    t.inputs = [] ∧
    t.results.length = s.results.length + s.inputs.countP (fun h => match h with | .command _ => true | .store _ _ => false) ∧
    ∀ j, run (s.inputs.length + j) s = .next t) ∧
  (∀ (k j : Nat) (s u : State) (r : Refusal), run k s = .next u → step u = .refused r →
    run (k + 1 + j) s = .refused r)

/-! ### The tables, `ENC_NIBBLE` and `DEC_SYMBOL` -/

/-- R85: `ENC_NIBBLE` returns `SYM[N]` for every nibble, touches nothing else and cannot fail; with the two entries the
document gives, its example. -/
def Obligations.EncNibbleReturnsSymbol : Prop :=
  (∀ (n : Nibble) (s : State), exec (.encNibble n) s = .next (s.respond (.symOut (s.cfg.tables.symbol n)))) ∧
  (∀ s : State, s.cfg.tables.Fixed →
    exec (.encNibble 0xA) s = .next (s.respond (.symOut 0xAA)) ∧
    exec (.encNibble 0x5) s = .next (s.respond (.symOut 0x55)))

/-- R89: `DEC_SYMBOL` returns `DEC[B]` for every byte, touches nothing else and cannot fail; on a codeword it returns the
originating nibble (R84), on any byte a nearest one where the table has `Nearest` (R86). -/
def Obligations.DecSymbolReturnsNibble : Prop :=
  (∀ (b : Byte) (s : State), exec (.decSymbol b) s = .next (s.respond (.nibOut (s.cfg.tables.nibble b)))) ∧
  (∀ (n : Nibble) (s : State), s.cfg.tables.RoundTrip →
    exec (.decSymbol (s.cfg.tables.symbol n)) s = .next (s.respond (.nibOut n))) ∧
  (∀ s : State, s.cfg.tables.WF →
    exec (.decSymbol 0xAA) s = .next (s.respond (.nibOut 0xA)) ∧
    exec (.decSymbol 0x55) s = .next (s.respond (.nibOut 0x5))) ∧
  (∀ (b : Byte) (s : State), s.cfg.tables.Nearest →
    ∃ n, exec (.decSymbol b) s = .next (s.respond (.nibOut n)) ∧
      ∀ m, hammingDistance b (s.cfg.tables.symbol n) ≤ hammingDistance b (s.cfg.tables.symbol m))

/-- R81: with an injective table exactly 16 of the 256 byte values are codewords. -/
def Obligations.SixteenCodewords : Prop :=
  ∀ t : Tables, t.Injective → ((List.range 256).countP fun b => t.isCodeword (BitVec.ofNat 8 b)) = 16

/-- R84: with P2 and the two fixed entries, two entries of the reverse table are known, and the reverse table is onto. -/
def Obligations.ReverseTableOnto : Prop :=
  ∀ t : Tables, t.Fixed → t.RoundTrip →
    t.nibble 0xAA = 0xA ∧ t.nibble 0x55 = 0x5 ∧ (∀ n, t.nibble (t.symbol n) = n) ∧ ∀ n, ∃ b, t.nibble b = n

/-- R86: P1 and P3 together imply P2. -/
def Obligations.NearestImpliesRoundTrip : Prop :=
  ∀ t : Tables, t.Injective → t.Nearest → t.RoundTrip

/-- R90: the packed form read with its own order gives the reverse table, read with the other order it gives
`DEC[b XOR 1]`, which still passes the round trip where single-bit errors are corrected; the packed form determines the
table; and no command depends on the order. -/
def Obligations.PackingCarriesNoMeaning : Prop :=
  (∀ (t : Tables) (o : PackOrder) (b : Byte), (t.pack o).lookup o b = t.nibble b) ∧
  (∀ (t : Tables) (o o' : PackOrder) (b : Byte), o ≠ o' → (t.pack o).lookup o' b = t.nibble (b ^^^ 1)) ∧
  (∀ (t : Tables) (o o' : PackOrder) (n : Nibble), o ≠ o' → t.SingleBitCorrecting →
    (t.pack o).lookup o' (t.symbol n) = n) ∧
  (∀ (t t' : Tables) (o : PackOrder), t.pack o = t'.pack o → ∀ b, t.nibble b = t'.nibble b) ∧
  (∀ (i : Instr) (s : State) (o : PackOrder),
    exec i (s.withPackOrder o) = mapNext (fun t => t.withPackOrder o) (exec i s))

/-- R92: decoding uses the reverse table as given and never computes it from the forward table. -/
def Obligations.DecodingIgnoresForwardTable : Prop :=
  ∀ (s : State) (sym : Vector Byte 16),
    (∀ b, exec (.decSymbol b) (s.withForwardTable sym) =
      mapNext (fun t => t.withForwardTable sym) (exec (.decSymbol b) s)) ∧
    (∀ len cap src dst, exec (.decode len cap src dst) (s.withForwardTable sym) =
      mapNext (fun t => t.withForwardTable sym) (exec (.decode len cap src dst) s))

/-! ### The size commands -/

/-- R100: `ENC_SIZE` returns `2 * LEN`, exact for every length that fits its port, and touches nothing else; and an
`ENCODE` that needs more than `CAP` can express fails on capacity. -/
def Obligations.EncSizeDoubles : Prop :=
  (∀ (len : Nat) (s : State), exec (.encSize len) s = .next (s.respond (.sizeOut (2 * len)))) ∧
  (∀ bits len : Nat, len < 2 ^ bits → 2 * len < 2 ^ (bits + 1)) ∧
  (∀ bits : Nat, 2 * (2 ^ bits - 1) = 2 ^ (bits + 1) - 2) ∧
  (∀ (bits len cap src dst : Nat) (s : State), 2 ^ bits ≤ 2 * len → cap < 2 ^ bits → overlaps len cap src dst = false →
    exec (.encode len cap src dst) s = .next (s.respond (.ret 0)))

/-- R120: `DEC_SIZE` returns `floor(LEN / 2)` for every length, odd ones too, touches nothing else, and the two top bits
of its port are zero; and the two size functions undo each other as far as they can. -/
def Obligations.DecSizeHalves : Prop :=
  (∀ (len : Nat) (s : State), exec (.decSize len) s = .next (s.respond (.sizeOut (len / 2)))) ∧
  (∀ bits len : Nat, 1 ≤ bits → len < 2 ^ bits → len / 2 < 2 ^ (bits - 1)) ∧
  (∀ n : Nat, decodedSize (encodedSize n) = n) ∧
  (∀ n : Nat, encodedSize (decodedSize n) = if n % 2 = 0 then n else n - 1)

/-! ### `ENCODE` -/

/-- R103: `ENCODE` is the function `encodeBuffer` of the source bytes and the destination's prior bytes, and `enc` has the
symbols of byte `i` at `2*i` and `2*i + 1` and distributes over joining. -/
def Obligations.EncodeIsItsFunction : Prop :=
  (∀ (s : State) (len cap src dst : Nat), s.mem.wf → overlaps len cap src dst = false →
    ∃ t, exec (.encode len cap src dst) s = .next t ∧
      t.results = s.results ++
        [.ret (encodeBuffer s.cfg.tables (s.mem.readBytes src len) (s.mem.readBytes dst cap)).1] ∧
      t.mem.readBytes dst cap =
        (encodeBuffer s.cfg.tables (s.mem.readBytes src len) (s.mem.readBytes dst cap)).2) ∧
  (∀ (t : Tables) (bs : List Byte) (i : Nat) (h : i < bs.length),
    (enc t bs)[2 * i]? = some (t.symbol (highNibble bs[i])) ∧
    (enc t bs)[2 * i + 1]? = some (t.symbol (lowNibble bs[i]))) ∧
  (∀ (t : Tables) (bs : List Byte), (enc t bs).length = 2 * bs.length) ∧
  (∀ (t : Tables) (xs ys : List Byte), enc t (xs ++ ys) = enc t xs ++ enc t ys) ∧
  (∀ t : Tables, enc t [] = [])

/-- R101: `ENCODE` fails on capacity exactly when `C < 2*S`, and then changes nothing but its result; otherwise it
returns `2*S` and leaves the excess bytes of the destination alone. The contents of the buffers play no part. -/
def Obligations.EncodeCapacityGuard : Prop :=
  (∀ (s : State) (len cap src dst : Nat), overlaps len cap src dst = false → cap < 2 * len →
    exec (.encode len cap src dst) s = .next (s.respond (.ret 0))) ∧
  (∀ (s : State) (len cap src dst : Nat), s.mem.wf → overlaps len cap src dst = false → 2 * len ≤ cap →
    ∃ t, exec (.encode len cap src dst) s = .next t ∧ t.results = s.results ++ [.ret (2 * len)] ∧
      ∀ k, 2 * len ≤ k → k < cap → t.mem.read (dst + k) = s.mem.read (dst + k))

/-- R102, corner case 9: every byte a successful `ENCODE` writes is a codeword. -/
def Obligations.EncodeWritesCodewords : Prop :=
  ∀ (s : State) (len cap src dst : Nat), s.mem.wf → overlaps len cap src dst = false → 2 * len ≤ cap →
    ∃ t, exec (.encode len cap src dst) s = .next t ∧
      ∀ k, k < 2 * len → s.cfg.tables.isCodeword (t.mem.read (dst + k)) = true

/-! ### `DECODE` -/

/-- R123: `DECODE` of an even length is the function `decodeBuffer` of the source bytes and the destination's prior bytes,
and `dec` has at `j` the byte of the pair at `2*j` and `2*j + 1` and distributes over joining even-length sequences. -/
def Obligations.DecodeIsItsFunction : Prop :=
  (∀ (s : State) (len cap src dst : Nat), s.mem.wf → len % 2 = 0 → overlaps len cap src dst = false →
    ∃ t, exec (.decode len cap src dst) s = .next t ∧
      t.results = s.results ++
        [.ret (decodeBuffer s.cfg.tables (s.mem.readBytes src len) (s.mem.readBytes dst cap)).1] ∧
      t.mem.readBytes dst cap =
        (decodeBuffer s.cfg.tables (s.mem.readBytes src len) (s.mem.readBytes dst cap)).2) ∧
  (∀ (t : Tables) (ss : List Byte) (j : Nat) (h : 2 * j + 1 < ss.length),
    (dec t ss)[j]? = some (joinNibbles (t.nibble ss[2 * j]) (t.nibble ss[2 * j + 1]))) ∧
  (∀ (t : Tables) (ss : List Byte), ss.length % 2 = 0 → (dec t ss).length = ss.length / 2) ∧
  (∀ (t : Tables) (xs ys : List Byte), xs.length % 2 = 0 → dec t (xs ++ ys) = dec t xs ++ dec t ys) ∧
  (∀ t : Tables, dec t [] = [])

/-- R121: an admitted `DECODE` (even length, or any length under `ignore_trailing`) fails on capacity exactly when
`C < floor(S/2)`, and then changes nothing but its result; otherwise it returns `floor(S/2)` and leaves the excess bytes
of the destination alone. (An odd length whose trailing byte the destination shares does as the even length before it, by
`Obligations.DecodeOddLength`.) -/
def Obligations.DecodeCapacityGuard : Prop :=
  (∀ (s : State) (len cap src dst : Nat), len % 2 = 0 ∨ s.cfg.oddLenPolicy = .ignoreTrailing →
    overlaps len cap src dst = false → cap < len / 2 →
    exec (.decode len cap src dst) s = .next (s.respond (.ret 0))) ∧
  (∀ (s : State) (len cap src dst : Nat), s.mem.wf → len % 2 = 0 ∨ s.cfg.oddLenPolicy = .ignoreTrailing →
    overlaps len cap src dst = false → len / 2 ≤ cap →
    ∃ t, exec (.decode len cap src dst) s = .next t ∧ t.results = s.results ++ [.ret (len / 2)] ∧
      ∀ k, len / 2 ≤ k → k < cap → t.mem.read (dst + k) = s.mem.read (dst + k))

/-- R125: an odd source length is refused under `refuse`, whatever the capacity is; under `ignore_trailing` the command
does exactly what it does on the first `S - 1` bytes, whether that is to complete or to be refused, and never reads the
last one. -/
def Obligations.DecodeOddLength : Prop :=
  (∀ (s : State) (len cap src dst : Nat), len % 2 = 1 → s.cfg.oddLenPolicy = .refuse →
    ∃ r, exec (.decode len cap src dst) s = .refused r ∧ (overlaps len cap src dst = false → r = .oddLength)) ∧
  (∀ (s : State) (len cap src dst : Nat), len % 2 = 1 → s.cfg.oddLenPolicy = .ignoreTrailing →
    exec (.decode len cap src dst) s = exec (.decode (len - 1) cap src dst) s ∧
    (overlaps (len - 1) cap src dst = false → ∃ t, exec (.decode len cap src dst) s = .next t) ∧
    accesses (.decode len cap src dst) s = accesses (.decode (len - 1) cap src dst) s ∧
    ∀ a ∈ accesses (.decode len cap src dst) s, a.sourceRead? ≠ some (len - 1))

/-- R126, R184: `DEC_SYMBOL` has a result for every operand, and a `DECODE` of an even-length source with room for its
output succeeds whatever the source holds, with the table's nibbles for every pair. -/
def Obligations.DecodeNeverFailsOnContent : Prop :=
  (∀ (b : Byte) (s : State), ∃ n, exec (.decSymbol b) s = .next (s.respond (.nibOut n))) ∧
  (∀ (s : State) (len cap src dst : Nat), s.mem.wf → len % 2 = 0 → overlaps len cap src dst = false → len / 2 ≤ cap →
    ∃ t, exec (.decode len cap src dst) s = .next t ∧ t.results = s.results ++ [.ret (len / 2)] ∧
      ∀ j, j < len / 2 → t.mem.read (dst + j) =
        joinNibbles (s.cfg.tables.nibble (s.mem.read (src + 2 * j)))
          (s.cfg.tables.nibble (s.mem.read (src + (2 * j + 1)))))

/-! ### Outcomes, frames and isolation -/

/-- R157 with R125: every command has the outcome the table gives it, with the result of its rule on success and
`RET = 0` and nothing else on capacity failure; a reserved code is refused; and every step ends, without a fault. That in
the row of an odd `S` under `ignore_trailing` the source is the first `S - 1` bytes is DEDUCED from R125
(notes/assumptions/18.md). -/
def Obligations.OutcomesMatchTable : Prop :=
  (∀ (i : Instr) (s : State), tableOutcome s.cfg.oddLenPolicy i = .succeeds →
    ∃ t, exec i s = .next t ∧ t.results = s.results ++ [successResult s.cfg.tables i]) ∧
  (∀ (i : Instr) (s : State), tableOutcome s.cfg.oddLenPolicy i = .failsOnCapacity →
    exec i s = .next (s.respond (.ret 0))) ∧
  (∀ (i : Instr) (s : State), tableOutcome s.cfg.oddLenPolicy i = .refused → ∃ r, exec i s = .refused r) ∧
  (∀ (s : State) (p : Ports) (rest : List HostInput), s.inputs = .command p :: rest → p.op = 6 ∨ p.op = 7 →
    ∃ r, step s = .refused r) ∧
  (∀ s : State, (∃ t, step s = .next t) ∨ ∃ r, step s = .refused r)

/-- R55: a buffer command whose regions share an address is refused; one that completes changes no byte of its source,
and where the whole regions share no address not even the trailing byte of an odd length. That the source of a `DECODE` of
odd length under `ignore_trailing` is its first `len - 1` bytes is DEDUCED from R125 (notes/assumptions/18.md). -/
def Obligations.OverlapRefused : Prop :=
  (∀ (s : State) (len cap src dst a : Nat), src ≤ a → a < src + len → dst ≤ a → a < dst + cap →
    exec (.encode len cap src dst) s = .refused .overlap ∧
      (len % 2 = 0 → exec (.decode len cap src dst) s = .refused .overlap) ∧
      (len % 2 = 1 → s.cfg.oddLenPolicy = .ignoreTrailing → a ≠ src + (len - 1) →
        exec (.decode len cap src dst) s = .refused .overlap)) ∧
  (∀ (s t : State) (len cap src dst : Nat), s.mem.wf →
    (exec (.encode len cap src dst) s = .next t → t.mem.readBytes src len = s.mem.readBytes src len) ∧
    (exec (.decode len cap src dst) s = .next t →
      t.mem.readBytes src (decodeSourceSize len) = s.mem.readBytes src (decodeSourceSize len) ∧
      (overlaps len cap src dst = false → t.mem.readBytes src len = s.mem.readBytes src len)))

/-- R23: `RET = 0` together with `need > 0` is failure, and a command with nothing to write cannot fail. (An odd length
whose trailing byte the destination shares does as the even length before it, by `Obligations.DecodeOddLength`.) -/
def Obligations.ZeroReturnAndFailure : Prop :=
  (∀ (s : State) (len cap src dst : Nat), overlaps len cap src dst = false →
    ∃ t v, exec (.encode len cap src dst) s = .next t ∧ t.results = s.results ++ [.ret v] ∧
      (capacityFails (encodedSize len) cap = true ↔ v = 0 ∧ 0 < 2 * len) ∧
      (capacityFails (encodedSize len) cap = false → v = 2 * len)) ∧
  (∀ (s : State) (len cap src dst : Nat), overlaps len cap src dst = false →
    len % 2 = 0 ∨ s.cfg.oddLenPolicy = .ignoreTrailing →
    ∃ t v, exec (.decode len cap src dst) s = .next t ∧ t.results = s.results ++ [.ret v] ∧
      (capacityFails (decodedSize len) cap = true ↔ v = 0 ∧ 0 < len / 2) ∧
      (capacityFails (decodedSize len) cap = false → v = len / 2)) ∧
  (∀ cap : Nat, capacityFails (encodedSize 0) cap = false ∧ capacityFails (decodedSize 0) cap = false ∧
    capacityFails (decodedSize 1) cap = false)

/-- R44, R48: what each of the six commands leaves unchanged when it completes: the configuration, what is still to be
presented, the results before its own, and every byte of memory outside the bytes it stores to, which are the first
`RET` bytes of its destination; the four small commands and a failed command store to none. -/
def Obligations.CommandFrame : Prop :=
  ∀ (i : Instr) (s t : State), s.mem.wf → exec i s = .next t →
    t.cfg = s.cfg ∧ t.inputs = s.inputs ∧ (∃ r, t.results = s.results ++ [r]) ∧
    (storedRegion i).base = (destinationRegion i).base ∧ (storedRegion i).size ≤ (destinationRegion i).size ∧
    ∀ a, ¬(storedRegion i).holds a → t.mem.read a = s.mem.read a

/-- R48, R50, R166: the number and the order of the accesses: source and destination offsets each exactly once and
ascending, one look-up for each nibble, and no access at all on capacity failure or refusal. -/
def Obligations.AccessesOncePerOffset : Prop :=
  (∀ (s : State) (len cap src dst : Nat), overlaps len cap src dst = false → 2 * len ≤ cap →
    (accesses (.encode len cap src dst) s).filterMap Access.sourceRead? = List.range len ∧
    (accesses (.encode len cap src dst) s).filterMap Access.destinationWrite? = List.range (2 * len) ∧
    (accesses (.encode len cap src dst) s).countP Access.isLookup = 2 * len) ∧
  (∀ (s : State) (len cap src dst : Nat), len % 2 = 0 ∨ s.cfg.oddLenPolicy = .ignoreTrailing →
    overlaps (decodeSourceSize len) cap src dst = false → len / 2 ≤ cap →
    (accesses (.decode len cap src dst) s).filterMap Access.sourceRead? = List.range (decodeSourceSize len) ∧
    (accesses (.decode len cap src dst) s).filterMap Access.destinationWrite? = List.range (len / 2) ∧
    (accesses (.decode len cap src dst) s).countP Access.isLookup = decodeSourceSize len) ∧
  (∀ (i : Instr) (s : State), tableOutcome s.cfg.oddLenPolicy i ≠ .succeeds → accesses i s = [])

/-- R48, R50: making the accesses of a command one after the other leaves the memory the command leaves. -/
def Obligations.AccessesExplainMemory : Prop :=
  ∀ (i : Instr) (s t : State), s.mem.wf → exec i s = .next t →
    t.mem = (accesses i s).foldl (Access.perform (destinationRegion i).base) s.mem

/-- R29, R144, R147: a command sees nothing of the commands before it or of those still to come: with the same
configuration and memory it does the same. -/
def Obligations.HistoryInvisible : Prop :=
  ∀ (i : Instr) (s s' : State), s'.cfg = s.cfg → s'.mem = s.mem →
    (∀ t, exec i s = .next t → ∃ t' r, exec i s' = .next t' ∧ t'.mem = t.mem ∧
      t.results = s.results ++ [r] ∧ t'.results = s'.results ++ [r]) ∧
    (∀ r, exec i s = .refused r → exec i s' = .refused r)

/-- R49, R181: the result and the destination's new contents depend on the configuration, the two lengths, the source's
contents and the destination's prior contents alone, wherever the buffers stand and whatever else the memory holds. -/
def Obligations.PlacementIrrelevant : Prop :=
  ∀ (s s' t : State) (len cap src dst src' dst' : Nat), s.mem.wf → s'.mem.wf → s'.cfg = s.cfg →
    s'.mem.readBytes src' len = s.mem.readBytes src len → s'.mem.readBytes dst' cap = s.mem.readBytes dst cap →
    (overlaps len cap src' dst' = false → exec (.encode len cap src dst) s = .next t →
      ∃ t' r, exec (.encode len cap src' dst') s' = .next t' ∧ t.results = s.results ++ [r] ∧
        t'.results = s'.results ++ [r] ∧ t'.mem.readBytes dst' cap = t.mem.readBytes dst cap) ∧
    (overlaps (decodeSourceSize len) cap src' dst' = false → exec (.decode len cap src dst) s = .next t →
      ∃ t' r, exec (.decode len cap src' dst') s' = .next t' ∧ t.results = s.results ++ [r] ∧
        t'.results = s'.results ++ [r] ∧ t'.mem.readBytes dst' cap = t.mem.readBytes dst cap)

/-- R51: two commands whose buffers obey R56 give the same results and the same memory in either order. -/
def Obligations.IndependentCommandsCommute : Prop :=
  ∀ (i j : Instr) (s t u : State), s.mem.wf → independent i j → exec i s = .next t → exec j t = .next u →
    ∃ t' u' ri rj, exec j s = .next t' ∧ exec i t' = .next u' ∧ u'.mem = u.mem ∧
      u.results = s.results ++ [ri, rj] ∧ u'.results = s.results ++ [rj, ri]

/-! ### Laws of the codec -/

/-- R180: the round trip on clean data, of the functions and of the two commands one after the other. -/
def Obligations.CleanRoundTrip : Prop :=
  (∀ (t : Tables) (bs : List Byte), t.RoundTrip → dec t (enc t bs) = bs) ∧
  (∀ (s : State) (len cap₁ cap₂ src mid dst : Nat), s.mem.wf → s.cfg.tables.RoundTrip →
    overlaps len cap₁ src mid = false → overlaps (2 * len) cap₂ mid dst = false → 2 * len ≤ cap₁ → len ≤ cap₂ →
    ∃ t u, exec (.encode len cap₁ src mid) s = .next t ∧ t.results = s.results ++ [.ret (2 * len)] ∧
      t.mem.readBytes mid (2 * len) = enc s.cfg.tables (s.mem.readBytes src len) ∧
      exec (.decode (2 * len) cap₂ mid dst) t = .next u ∧ u.results = t.results ++ [.ret len] ∧
      u.mem.readBytes dst len = s.mem.readBytes src len)

/-- R182: the size laws, of the functions and of the two commands. -/
def Obligations.SizeLaws : Prop :=
  (∀ (t : Tables) (bs : List Byte), (enc t bs).length = 2 * bs.length) ∧
  (∀ (t : Tables) (ss : List Byte), ss.length % 2 = 0 → (dec t ss).length = ss.length / 2) ∧
  (∀ (s : State) (len cap src dst : Nat), overlaps len cap src dst = false → 2 * len ≤ cap →
    ∃ t n, exec (.encode len cap src dst) s = .next t ∧ t.results = s.results ++ [.ret n] ∧
      exec (.encSize len) s = .next (s.respond (.sizeOut n))) ∧
  (∀ (s : State) (len cap src dst : Nat), len % 2 = 0 → overlaps len cap src dst = false → len / 2 ≤ cap →
    ∃ t n, exec (.decode len cap src dst) s = .next t ∧ t.results = s.results ++ [.ret n] ∧
      exec (.decSize len) s = .next (s.respond (.sizeOut n)))

/-- R183: one byte short fails and writes nothing, and so does every smaller capacity and no other. -/
def Obligations.OneByteShort : Prop :=
  (∀ (s : State) (len src dst : Nat), 1 ≤ len → overlaps len (2 * len - 1) src dst = false →
    exec (.encode len (2 * len - 1) src dst) s = .next (s.respond (.ret 0))) ∧
  (∀ (s : State) (len src dst : Nat), 2 ≤ len → len % 2 = 0 → overlaps len (len / 2 - 1) src dst = false →
    exec (.decode len (len / 2 - 1) src dst) s = .next (s.respond (.ret 0))) ∧
  (∀ (s : State) (len cap src dst : Nat), 1 ≤ len → overlaps len cap src dst = false →
    (exec (.encode len cap src dst) s = .next (s.respond (.ret 0)) ↔ cap < 2 * len)) ∧
  (∀ (s : State) (len cap src dst : Nat), 2 ≤ len → len % 2 = 0 → overlaps len cap src dst = false →
    (exec (.decode len cap src dst) s = .next (s.respond (.ret 0)) ↔ cap < len / 2))

/-- R185: an empty source succeeds for every capacity, reads nothing and leaves the destination unchanged. -/
def Obligations.EmptyInput : Prop :=
  ∀ (s : State) (cap src dst : Nat),
    exec (.encode 0 cap src dst) s = .next (s.respond (.ret 0)) ∧
    exec (.decode 0 cap src dst) s = .next (s.respond (.ret 0)) ∧
    tableOutcome s.cfg.oddLenPolicy (.encode 0 cap src dst) = .succeeds ∧
    tableOutcome s.cfg.oddLenPolicy (.decode 0 cap src dst) = .succeeds ∧
    accesses (.encode 0 cap src dst) s = [] ∧ accesses (.decode 0 cap src dst) s = []

/-- R187: the document's scenario, for every configuration with `Fixed` and `RoundTrip`. -/
def Obligations.DocumentScenario : Prop :=
  (∀ (s : State) (src dst : Nat), s.mem.wf → s.cfg.tables.Fixed → s.mem.readBytes src 1 = [0xA5] →
    overlaps 1 2 src dst = false →
    ∃ t, exec (.encode 1 2 src dst) s = .next t ∧ t.results = s.results ++ [.ret 2] ∧
      t.mem.readBytes dst 2 = [0xAA, 0x55]) ∧
  (∀ (s : State) (src dst : Nat), s.mem.wf → s.cfg.tables.Fixed → s.cfg.tables.RoundTrip →
    s.mem.readBytes src 2 = [0xAA, 0x55] → overlaps 2 1 src dst = false →
    ∃ t, exec (.decode 2 1 src dst) s = .next t ∧ t.results = s.results ++ [.ret 1] ∧
      t.mem.readBytes dst 1 = [0xA5])

/-- R186: under `Nearest`, a minimum distance of at least `2e + 1` corrects up to `e` flipped bits a symbol; with 3 every
single-bit error is corrected, and a `DECODE` of an encoded buffer in which each symbol has at most one flipped bit
returns the data. -/
def Obligations.ConditionalCorrection : Prop :=
  (∀ (t : Tables) (e : Nat), t.Nearest → 2 * e + 1 ≤ t.minDist →
    ∀ (n : Nibble) (r : Byte), hammingDistance (t.symbol n) r ≤ e → t.nibble r = n) ∧
  (∀ t : Tables, t.Nearest → 3 ≤ t.minDist → t.SingleBitCorrecting) ∧
  (∀ (s : State) (len cap src dst : Nat) (bs : List Byte), s.mem.wf → s.cfg.tables.Nearest → 3 ≤ s.cfg.tables.minDist →
    len = 2 * bs.length → overlaps len cap src dst = false → bs.length ≤ cap →
    List.Forall₂ (fun x y => hammingDistance x y ≤ 1) (enc s.cfg.tables bs) (s.mem.readBytes src len) →
    ∃ t, exec (.decode len cap src dst) s = .next t ∧ t.results = s.results ++ [.ret bs.length] ∧
      t.mem.readBytes dst bs.length = bs)

/-- R189 (a): changing one source byte changes only the bytes made from it, and for `DECODE` only one nibble of one
byte; the trailing byte of an odd length under `ignore_trailing` (R125) makes no difference to any other byte. -/
def Obligations.ChangesStayLocal : Prop :=
  (∀ (s t t' : State) (len cap src dst i : Nat) (v : Byte), s.mem.wf → i < len →
    exec (.encode len cap src dst) s = .next t →
    exec (.encode len cap src dst) (s.setMem (s.mem.write (src + i) v)) = .next t' →
    ∀ k, k < cap → k ≠ 2 * i → k ≠ 2 * i + 1 → t'.mem.read (dst + k) = t.mem.read (dst + k)) ∧
  (∀ (s t t' : State) (len cap src dst i : Nat) (v : Byte), s.mem.wf → i < decodeSourceSize len →
    exec (.decode len cap src dst) s = .next t →
    exec (.decode len cap src dst) (s.setMem (s.mem.write (src + i) v)) = .next t' →
    (∀ k, k < cap → k ≠ i / 2 → t'.mem.read (dst + k) = t.mem.read (dst + k)) ∧
    (i / 2 < cap → i % 2 = 0 →
      lowNibble (t'.mem.read (dst + i / 2)) = lowNibble (t.mem.read (dst + i / 2))) ∧
    (i / 2 < cap → i % 2 = 1 →
      highNibble (t'.mem.read (dst + i / 2)) = highNibble (t.mem.read (dst + i / 2)))) ∧
  (∀ (s t t' : State) (len cap src dst i : Nat) (v : Byte), s.mem.wf → decodeSourceSize len ≤ i → i < len →
    exec (.decode len cap src dst) s = .next t →
    exec (.decode len cap src dst) (s.setMem (s.mem.write (src + i) v)) = .next t' →
    ∀ a, a ≠ src + i → t'.mem.read a = t.mem.read a)

/-- R189 (c), (d): `enc` is injective where `SYM` is, and re-encoding a decoded stream gives the codewords the decoder
chose, which decode to the same data. -/
def Obligations.EncodingInjective : Prop :=
  (∀ (t : Tables) (xs ys : List Byte), t.Injective → enc t xs = enc t ys → xs = ys) ∧
  (∀ (t : Tables) (es : List Byte), t.RoundTrip → es.length % 2 = 0 →
    dec t (enc t (dec t es)) = dec t es ∧ (enc t (dec t es)).length = es.length ∧
    ∀ k, k < es.length → (enc t (dec t es))[k]? = (es[k]?).map fun b => t.symbol (t.nibble b))
end

