-- ==== Sys2Proof/Laws/Memory.lean ====
section
/-! SUPPORT. Memory: a byte read after a write, the canonical form kept by every write, and equality by reading
(spec/20_memory.md R43, R44). -/

namespace Sys2Proof.Machine.Memory

@[simp] theorem read_nil (a : Nat) : read [] a = unlisted := rfl

theorem wf_nil : wf [] := ⟨List.Pairwise.nil, by simp⟩

/-- The tail of a canonical memory is canonical and lies above its head, which is no default byte. -/
theorem wf_cons {c : Host.Cell} {m : Memory} :
    wf (c :: m) ↔ (∀ d ∈ m, c.1 < d.1) ∧ c.2 ≠ unlisted ∧ wf m := by
  simp only [wf, List.pairwise_cons, List.forall_mem_cons]
  tauto

/-- An address below every listed one reads as unlisted. -/
theorem read_of_lt {m : Memory} {a : Nat} (h : ∀ c ∈ m, a < c.1) : m.read a = unlisted := by
  cases m with
  | nil => rfl
  | cons c m =>
    have := h c (by simp)
    simp [read, this, Nat.ne_of_lt this]

/-- A listed byte lies at the written address or was listed before. -/
theorem mem_write {m : Memory} {a : Nat} {v : Byte} {c : Host.Cell} (h : c ∈ m.write a v) :
    c ∈ m ∨ (c = (a, v) ∧ v ≠ unlisted) := by
  induction m with
  | nil => simp only [write] at h; split at h <;> simp_all
  | cons d m ih =>
    simp only [write] at h
    split at h
    · split at h
      · exact .inl h
      · rcases List.mem_cons.mp h with h | h
        · exact .inr ⟨h, ‹_›⟩
        · exact .inl h
    · split at h
      · split at h
        · exact .inl (List.mem_cons_of_mem _ h)
        · rcases List.mem_cons.mp h with h | h
          · exact .inr ⟨h, ‹_›⟩
          · exact .inl (List.mem_cons_of_mem _ h)
      · rcases List.mem_cons.mp h with h | h
        · exact .inl (h ▸ List.mem_cons_self ..)
        · exact (ih h).imp_left (List.mem_cons_of_mem _)

/-- A write keeps the canonical form. -/
theorem wf_write {m : Memory} (hm : m.wf) (a : Nat) (v : Byte) : (m.write a v).wf := by
  induction m with
  | nil =>
    simp only [write]
    split
    · exact wf_nil
    · exact wf_cons.mpr ⟨by simp, ‹_›, wf_nil⟩
  | cons c m ih =>
    obtain ⟨hlt, hne, hw⟩ := wf_cons.mp hm
    simp only [write]
    split_ifs with h1 h2 h3 h4
    · exact hm
    · exact wf_cons.mpr ⟨by
        intro d hd
        rcases List.mem_cons.mp hd with rfl | hd
        · exact h1
        · exact h1.trans (hlt d hd), h2, hm⟩
    · exact hw
    · exact wf_cons.mpr ⟨fun d hd => h3 ▸ hlt d hd, h4, hw⟩
    · refine wf_cons.mpr ⟨fun d hd => ?_, hne, ih hw⟩
      rcases mem_write hd with hd | ⟨rfl, -⟩
      · exact hlt d hd
      · show c.1 < a
        omega

/-- The byte just written is read back. -/
theorem read_write_same {m : Memory} (hm : m.wf) (a : Nat) (v : Byte) : (m.write a v).read a = v := by
  induction m with
  | nil => simp only [write]; split <;> simp_all [read]
  | cons c m ih =>
    obtain ⟨hlt, -, hw⟩ := wf_cons.mp hm
    simp only [write]
    split_ifs with h1 h2 h3 h4
    · simp [read, h1, Nat.ne_of_lt h1, h2]
    · simp [read]
    · rw [h4, read_of_lt fun d hd => h3 ▸ hlt d hd]
    · simp [read]
    · simp [read, h1, h3, ih hw]

/-- A write leaves every other address alone. -/
theorem read_write_ne {m : Memory} (hm : m.wf) {a b : Nat} (v : Byte) (h : b ≠ a) :
    (m.write a v).read b = m.read b := by
  induction m with
  | nil => simp only [write]; split <;> simp_all [read]
  | cons c m ih =>
    obtain ⟨hlt, -, hw⟩ := wf_cons.mp hm
    simp only [write]
    split_ifs with h1 h2 h3 h4
    · rfl
    · by_cases hb : b < a
      · have hbc : b < c.1 := hb.trans h1
        simp [read, h, hb, hbc, Nat.ne_of_lt hbc]
      · simp [read, h, hb]
    · by_cases hb : b < c.1
      · rw [read_of_lt fun d hd => hb.trans (hlt d hd)]
        simp [read, hb, Nat.ne_of_lt hb]
      · have hbc : b ≠ c.1 := h3 ▸ h
        simp [read, hb, hbc]
    · subst h3
      by_cases hb : b < c.1 <;> simp [read, h, hb]
    · by_cases hbc : b = c.1
      · simp [read, hbc]
      · simp [read, hbc, ih hw]

/-- Reading after a write, both cases at once. -/
theorem read_write {m : Memory} (hm : m.wf) (a b : Nat) (v : Byte) :
    (m.write a v).read b = if b = a then v else m.read b := by
  split
  · subst b; exact read_write_same hm a v
  · exact read_write_ne hm v ‹_›

/-- Canonical memories that read alike are equal. -/
theorem ext {m m' : Memory} (hm : m.wf) (hm' : m'.wf) (h : ∀ a, m.read a = m'.read a) : m = m' := by
  induction m generalizing m' with
  | nil =>
    cases m' with
    | nil => rfl
    | cons c m' =>
      exact absurd ((h c.1).trans (by simp [read])).symm (wf_cons.mp hm').2.1
  | cons c m ih =>
    obtain ⟨hlt, hne, hw⟩ := wf_cons.mp hm
    have hc : (read (c :: m) c.1) = c.2 := by simp [read]
    cases m' with
    | nil => exact absurd (hc.symm.trans (h c.1)) hne
    | cons d m' =>
      obtain ⟨hlt', hne', hw'⟩ := wf_cons.mp hm'
      have hd : (read (d :: m') d.1) = d.2 := by simp [read]
      have below : ∀ {x y : Host.Cell} {l : Memory}, (∀ z ∈ l, y.1 < z.1) → x.1 < y.1 →
          read (y :: l) x.1 = unlisted := fun hl hxy =>
        read_of_lt fun z hz => by
          rcases List.mem_cons.mp hz with rfl | hz
          · exact hxy
          · exact hxy.trans (hl z hz)
      have hcd : c.1 = d.1 := by
        rcases Nat.lt_trichotomy c.1 d.1 with hl | he | hl
        · exact absurd (hc.symm.trans ((h _).trans (below hlt' hl))) hne
        · exact he
        · exact absurd (hd.symm.trans ((h _).symm.trans (below hlt hl))) hne'
      have hv : c.2 = d.2 := by rw [← hc, h, hcd, hd]
      have htail : m = m' := ih hw hw' fun a => by
        by_cases ha : c.1 < a
        · have := h a
          simpa [read, Nat.ne_of_gt ha, hcd ▸ Nat.ne_of_gt ha, Nat.not_lt_of_gt ha,
            hcd ▸ Nat.not_lt_of_gt ha] using this
        · rw [read_of_lt fun z hz => Nat.lt_of_le_of_lt (Nat.le_of_not_lt ha) (hlt z hz),
            read_of_lt fun z hz => Nat.lt_of_le_of_lt (Nat.le_of_not_lt ha) (hcd ▸ hlt' z hz)]
      rw [htail, Prod.ext hcd hv]

@[simp] theorem length_readBytes (m : Memory) (base n : Nat) : (m.readBytes base n).length = n := by
  simp [readBytes]

theorem getElem?_readBytes (m : Memory) (base n k : Nat) :
    (m.readBytes base n)[k]? = if k < n then some (m.read (base + k)) else none := by
  by_cases h : k < n <;> simp [readBytes, h]

@[simp] theorem getElem_readBytes (m : Memory) (base n k : Nat) (h : k < (m.readBytes base n).length) :
    (m.readBytes base n)[k] = m.read (base + k) := by
  simp [readBytes]

/-- Two regions of one length hold the same sequence exactly when they read alike offset by offset. -/
theorem readBytes_eq_iff {m m' : Memory} {base base' n : Nat} :
    m.readBytes base n = m'.readBytes base' n ↔ ∀ k < n, m.read (base + k) = m'.read (base' + k) := by
  simp [readBytes]

/-- What a region holds is known from its bytes. -/
theorem readBytes_eq {m : Memory} {base n : Nat} {bs : List Byte} (hn : bs.length = n)
    (h : ∀ k (hk : k < bs.length), m.read (base + k) = bs[k]) : m.readBytes base n = bs := by
  subst hn
  exact List.ext_getElem (by simp) fun k _ hk => by simpa using h k hk

/-- Storing a sequence keeps the canonical form. -/
theorem wf_writeBytes {m : Memory} (hm : m.wf) (base : Nat) (bs : List Byte) : (m.writeBytes base bs).wf := by
  induction bs generalizing m base with
  | nil => exact hm
  | cons v bs ih => exact ih (wf_write hm base v) _

/-- Reading after a sequence was stored. -/
theorem read_writeBytes {m : Memory} (hm : m.wf) (base : Nat) (bs : List Byte) (a : Nat) :
    (m.writeBytes base bs).read a =
      if base ≤ a then (bs[a - base]?).getD (m.read a) else m.read a := by
  induction bs generalizing m base with
  | nil => simp [writeBytes]
  | cons v bs ih =>
    rw [writeBytes, ih (wf_write hm base v), read_write hm]
    rcases Nat.lt_trichotomy base a with h | rfl | h
    · have h1 : base + 1 ≤ a := h
      have h2 : a - base = (a - (base + 1)) + 1 := by omega
      simp [h1, h.le, Nat.ne_of_gt h, h2]
    · simp
    · have h1 : ¬ base + 1 ≤ a := by omega
      have h2 : ¬ base ≤ a := by omega
      simp [h1, h2, Nat.ne_of_lt h]

end Sys2Proof.Machine.Memory
end

