-- ==== Sys2Proof/Laws/Operands.lean ====
section
/-! SUPPORT. The operand computations: nibbles of a byte, the overlap and odd-length conditions, the capacity guard. -/

namespace Sys2Proof.Machine

@[simp] theorem highNibble_joinNibbles (h l : Nibble) : highNibble (joinNibbles h l) = h :=
  BitVec.extractLsb'_append_eq_left

@[simp] theorem lowNibble_joinNibbles (h l : Nibble) : lowNibble (joinNibbles h l) = l :=
  BitVec.extractLsb'_append_eq_right

@[simp] theorem joinNibbles_high_low (b : Byte) : joinNibbles (highNibble b) (lowNibble b) = b := by
  refine (BitVec.extractLsb'_append_extractLsb'_eq_extractLsb' (x := b) (by omega)).trans ?_
  exact BitVec.extractLsb'_eq_self

/-- A byte is known from its two nibbles. -/
theorem byte_ext {b c : Byte} (hh : highNibble b = highNibble c) (hl : lowNibble b = lowNibble c) : b = c := by
  rw [← joinNibbles_high_low b, hh, hl, joinNibbles_high_low]

theorem decodeSourceSize_of_even {n : Nat} (h : n % 2 = 0) : decodeSourceSize n = n := by
  unfold decodeSourceSize decodedSize
  omega

theorem decodeSourceSize_of_odd {n : Nat} (h : n % 2 = 1) : decodeSourceSize n = n - 1 := by
  unfold decodeSourceSize decodedSize
  omega

theorem decodeSourceSize_le (n : Nat) : decodeSourceSize n ≤ n := by
  unfold decodeSourceSize decodedSize
  omega

/-- Two regions overlap exactly when an address lies in both (R55). -/
theorem overlaps_eq_true_iff {len cap src dst : Nat} :
    overlaps len cap src dst = true ↔ ∃ a, (src ≤ a ∧ a < src + len) ∧ dst ≤ a ∧ a < dst + cap := by
  simp only [overlaps, decide_eq_true_eq]
  constructor
  · intro h
    exact ⟨max src dst, by omega, by omega⟩
  · rintro ⟨a, h⟩
    omega

theorem overlaps_eq_false_iff {len cap src dst : Nat} :
    overlaps len cap src dst = false ↔ ∀ a, src ≤ a → a < src + len → dst ≤ a → ¬ a < dst + cap := by
  rw [← Bool.not_eq_true, overlaps_eq_true_iff]
  simp

/-- Where the regions do not overlap, no source address is a destination address. -/
theorem source_not_in_destination {len cap src dst : Nat} (h : overlaps len cap src dst = false) {k need : Nat}
    (hk : k < len) (hn : need ≤ cap) : ¬(dst ≤ src + k ∧ src + k < dst + need) := by
  have := overlaps_eq_false_iff.mp h (src + k)
  omega

/-- A shorter source overlaps no more than a longer one. -/
theorem overlaps_mono {len len' cap src dst : Nat} (h : overlaps len cap src dst = false) (hl : len' ≤ len) :
    overlaps len' cap src dst = false := by
  rw [overlaps_eq_false_iff] at h ⊢
  intro a h1 h2 h3
  exact h a h1 (by omega) h3

theorem oddRefused_eq_true_iff {p : OddLenPolicy} {len : Nat} :
    oddRefused p len = true ↔ len % 2 = 1 ∧ p = .refuse := by
  simp [oddRefused]

theorem oddRefused_eq_false_iff {p : OddLenPolicy} {len : Nat} :
    oddRefused p len = false ↔ len % 2 = 0 ∨ p = .ignoreTrailing := by
  cases p <;> simp [oddRefused]

@[simp] theorem capacityFails_eq_true_iff {need cap : Nat} : capacityFails need cap = true ↔ cap < need := by
  simp [capacityFails]

@[simp] theorem capacityFails_eq_false_iff {need cap : Nat} : capacityFails need cap = false ↔ need ≤ cap := by
  simp [capacityFails]

theorem returnedCount_of_fails {need cap : Nat} (h : capacityFails need cap = true) : returnedCount need cap = 0 := by
  simp [returnedCount, h]

theorem returnedCount_of_fits {need cap : Nat} (h : capacityFails need cap = false) :
    returnedCount need cap = need := by
  simp [returnedCount, h]

/-- A completed command never returns more than the capacity (R27, R44). -/
theorem returnedCount_le (need cap : Nat) : returnedCount need cap ≤ cap := by
  unfold returnedCount
  split <;> simp_all

end Sys2Proof.Machine
end

