-- ==== Sys2Proof/Laws/Codec.lean ====
section
/-! SUPPORT. What the two transfer loops leave in memory, and the two transforms of byte sequences offset by offset
(spec/41_encode.md R102, R103; spec/42_decode.md R122, R123). -/

namespace Sys2Proof.Machine

/-- The symbol at offset `k` of the encoding of the source at `src`: of the high nibble at even `k`, of the low nibble
at odd `k`. -/
def encodedByte (t : Tables) (m : Memory) (src k : Nat) : Byte :=
  t.symbol (if k % 2 = 0 then highNibble (m.read (src + k / 2)) else lowNibble (m.read (src + k / 2)))

/-- The byte at offset `j` of the decoding of the source at `src`. -/
def decodedByte (t : Tables) (m : Memory) (src j : Nat) : Byte :=
  joinNibbles (t.nibble (m.read (src + 2 * j))) (t.nibble (m.read (src + (2 * j + 1))))

/-- `n` iterations of `ENCODE`'s loop over a source apart from the bytes written: canonical form is kept, the first
`2*n` destination bytes are the symbols, every other byte is as before. -/
theorem encodeLoop_spec {t : Tables} {n src dst : Nat} {m : Memory} (hm : m.wf)
    (hd : ∀ k < n, ¬(dst ≤ src + k ∧ src + k < dst + 2 * n)) :
    (encodeLoop t n src dst m).wf ∧ ∀ a, (encodeLoop t n src dst m).read a =
      if dst ≤ a ∧ a < dst + 2 * n then encodedByte t m src (a - dst) else m.read a := by
  induction n with
  | zero => exact ⟨hm, fun a => by rw [if_neg (by omega)]; rfl⟩
  | succ n ih =>
    obtain ⟨hw, hr⟩ := ih fun k hk => by have := hd k (by omega); omega
    have hstep : encodeLoop t (n + 1) src dst m = encodeIteration t src dst (encodeLoop t n src dst m) n := by
      simp [encodeLoop, List.range_succ]
    have hsrc : (encodeLoop t n src dst m).read (src + n) = m.read (src + n) := by
      rw [hr, if_neg (by have := hd n (by omega); omega)]
    have hw1 := Memory.wf_write hw (dst + 2 * n) (t.symbol (highNibble (m.read (src + n))))
    rw [hstep, encodeIteration, hsrc]
    refine ⟨Memory.wf_write hw1 _ _, fun a => ?_⟩
    rw [Memory.read_write hw1, Memory.read_write hw, hr]
    by_cases h1 : a = dst + (2 * n + 1)
    · rw [if_pos h1, if_pos (by omega), encodedByte, if_neg (by omega), show (a - dst) / 2 = n by omega]
    by_cases h2 : a = dst + 2 * n
    · rw [if_neg h1, if_pos h2, if_pos (by omega), encodedByte, if_pos (by omega), show (a - dst) / 2 = n by omega]
    rw [if_neg h1, if_neg h2]
    by_cases h3 : dst ≤ a ∧ a < dst + 2 * n
    · rw [if_pos h3, if_pos (by omega)]
    · rw [if_neg h3, if_neg (by omega)]

/-- `n` iterations of `DECODE`'s loop over a source apart from the bytes written. -/
theorem decodeLoop_spec {t : Tables} {n src dst : Nat} {m : Memory} (hm : m.wf)
    (hd : ∀ k < 2 * n, ¬(dst ≤ src + k ∧ src + k < dst + n)) :
    (decodeLoop t n src dst m).wf ∧ ∀ a, (decodeLoop t n src dst m).read a =
      if dst ≤ a ∧ a < dst + n then decodedByte t m src (a - dst) else m.read a := by
  induction n with
  | zero => exact ⟨hm, fun a => by rw [if_neg (by omega)]; rfl⟩
  | succ n ih =>
    obtain ⟨hw, hr⟩ := ih fun k hk => by have := hd k (by omega); omega
    have hstep : decodeLoop t (n + 1) src dst m = decodeIteration t src dst (decodeLoop t n src dst m) n := by
      simp [decodeLoop, List.range_succ]
    have h0 : (decodeLoop t n src dst m).read (src + 2 * n) = m.read (src + 2 * n) := by
      rw [hr, if_neg (by have := hd (2 * n) (by omega); omega)]
    have h1 : (decodeLoop t n src dst m).read (src + (2 * n + 1)) = m.read (src + (2 * n + 1)) := by
      rw [hr, if_neg (by have := hd (2 * n + 1) (by omega); omega)]
    rw [hstep, decodeIteration, h0, h1]
    refine ⟨Memory.wf_write hw _ _, fun a => ?_⟩
    rw [Memory.read_write hw, hr]
    by_cases h2 : a = dst + n
    · rw [if_pos h2, if_pos (by omega), show a - dst = n by omega, decodedByte]
    rw [if_neg h2]
    by_cases h3 : dst ≤ a ∧ a < dst + n
    · rw [if_pos h3, if_pos (by omega)]
    · rw [if_neg h3, if_neg (by omega)]

/-- Whatever the buffers, the loops keep the canonical form. -/
theorem wf_encodeLoop {t : Tables} {n src dst : Nat} {m : Memory} (hm : m.wf) : (encodeLoop t n src dst m).wf := by
  induction n with
  | zero => exact hm
  | succ n ih =>
    rw [encodeLoop, List.range_succ, List.foldl_append]
    exact Memory.wf_write (Memory.wf_write ih _ _) _ _

theorem wf_decodeLoop {t : Tables} {n src dst : Nat} {m : Memory} (hm : m.wf) : (decodeLoop t n src dst m).wf := by
  induction n with
  | zero => exact hm
  | succ n ih =>
    rw [decodeLoop, List.range_succ, List.foldl_append]
    exact Memory.wf_write ih _ _

/-- The symbol of byte `i`'s high nibble stands at `2*i` of the encoding, that of its low nibble at `2*i + 1`. -/
theorem getElem?_enc (t : Tables) (bs : List Byte) (k : Nat) :
    (enc t bs)[k]? = (bs[k / 2]?).map fun b => t.symbol (if k % 2 = 0 then highNibble b else lowNibble b) := by
  induction bs generalizing k with
  | nil => simp [enc]
  | cons b bs ih =>
    match k with
    | 0 => simp [enc]
    | 1 => simp [enc]
    | k + 2 => simp [enc, ih, show (k + 2) / 2 = k / 2 + 1 by omega]

/-- Byte `j` of the decoding is made of the pair at `2*j` and `2*j + 1`. -/
theorem getElem?_dec (t : Tables) (ss : List Byte) (j : Nat) :
    (dec t ss)[j]? = (ss[2 * j]?).bind fun s0 => (ss[2 * j + 1]?).map fun s1 =>
      joinNibbles (t.nibble s0) (t.nibble s1) := by
  induction ss using dec.induct generalizing j with
  | case1 s0 s1 ss ih =>
    match j with
    | 0 => simp [dec]
    | j + 1 => simp [dec, ih, show 2 * (j + 1) = 2 * j + 1 + 1 by omega]
  | case2 ss h =>
    match ss, h with
    | [], _ => simp [dec]
    | [s0], _ => cases j <;> simp [dec]
    | s0 :: s1 :: ss, h => exact absurd rfl (h s0 s1 ss)

theorem getElem?_range_ite (n k : Nat) : (List.range n)[k]? = if k < n then some k else none := by
  by_cases h : k < n <;> simp [h]

/-- The encoding of a region, offset by offset. -/
theorem enc_readBytes (t : Tables) (m : Memory) (src n : Nat) :
    enc t (m.readBytes src n) = (List.range (2 * n)).map (encodedByte t m src) := by
  refine List.ext_getElem? fun k => ?_
  rw [getElem?_enc, Memory.getElem?_readBytes, List.getElem?_map, getElem?_range_ite]
  by_cases h : k < 2 * n
  · rw [if_pos (by omega), if_pos h]; rfl
  · rw [if_neg (by omega), if_neg h]; rfl

/-- The decoding of a region, offset by offset. -/
theorem dec_readBytes (t : Tables) (m : Memory) (src n : Nat) :
    dec t (m.readBytes src n) = (List.range (n / 2)).map (decodedByte t m src) := by
  refine List.ext_getElem? fun j => ?_
  rw [getElem?_dec, Memory.getElem?_readBytes, Memory.getElem?_readBytes, List.getElem?_map, getElem?_range_ite]
  by_cases h : j < n / 2
  · rw [if_pos (by omega), if_pos (by omega), if_pos h]; rfl
  · by_cases h2 : 2 * j < n
    · rw [if_pos h2, if_neg (by omega), if_neg h]; rfl
    · rw [if_neg h2, if_neg h]; rfl

end Sys2Proof.Machine
end

