-- ==== Sys2Proof/Laws/Decode.lean ====
section
/-! SUPPORT. The decoder by operation code, and what fits a port. -/

namespace Sys2Proof

/-- `v` fits a port exactly when it is below `2^bits` (R27). -/
@[simp] theorem fitsPort_iff {bits v : Nat} : fitsPort bits v = true ↔ v < 2 ^ bits := by
  have : 0 < 2 ^ bits := Nat.pow_pos (by omega)
  simp only [fitsPort, Bool.or_eq_true, beq_iff_eq, decide_eq_true_eq]
  omega

/-- The eight operation codes. -/
theorem opCode_cases (op : OpCode) :
    op = 0 ∨ op = 1 ∨ op = 2 ∨ op = 3 ∨ op = 4 ∨ op = 5 ∨ op = 6 ∨ op = 7 := by
  revert op
  decide

/-- The host's probe words carry zero operands, which fit every port. -/
theorem wellFormed_of_decodeTableWord {nbits w : Nat} {i : Instr} (h : decodeTableWord nbits w = some i) (bits : Nat) :
    i.wellFormed bits = true := by
  unfold decodeTableWord at h
  split at h
  · rename_i j hj
    obtain rfl : j = i := by injection h
    unfold decodePorts at hj
    split at hj <;> cases hj <;> rfl
  · cases h

end Sys2Proof
end

