-- ==== Sys2Proof/Laws/Distance.lean ====
section
/-! SUPPORT. Hamming distance (spec/00_scope.md R12), the least distance of a code (spec/40_code_table.md R87), and the
made-up table that meets the constraints. -/

namespace Sys2Proof

theorem hammingDistance_comm (a b : Byte) : hammingDistance a b = hammingDistance b a := by
  simp only [hammingDistance, bne_comm]

/-- The triangle inequality (R186). -/
theorem hammingDistance_triangle (a b c : Byte) :
    hammingDistance a c ≤ hammingDistance a b + hammingDistance b c := by
  unfold hammingDistance
  induction List.range 8 with
  | nil => simp
  | cons k ks ih =>
    simp only [List.countP_cons]
    cases a.getLsbD k <;> cases b.getLsbD k <;> cases c.getLsbD k <;> simp <;> omega

/-- Only equal bytes are at distance 0. -/
theorem hammingDistance_eq_zero {a b : Byte} : hammingDistance a b = 0 ↔ a = b := by
  constructor
  · intro h
    refine BitVec.eq_of_getLsbD_eq fun k hk => ?_
    have := List.countP_eq_zero.mp h k (List.mem_range.mpr hk)
    simpa using this
  · rintro rfl
    simp [hammingDistance]

@[simp] theorem hammingDistance_self (a : Byte) : hammingDistance a a = 0 :=
  hammingDistance_eq_zero.mpr rfl

/-- A byte with one bit flipped is at distance 1. -/
theorem hammingDistance_flipBit (a : Byte) (k : Fin 8) : hammingDistance a (flipBit a k) = 1 := by
  have h : ∀ j, (a.getLsbD j != (flipBit a k).getLsbD j) = (j == k.val) := fun j => by
    by_cases hj : j = k.val
    · subst hj; simp [flipBit]
    · simp [flipBit, BitVec.getLsbD_twoPow, hj, Ne.symm hj]
  simp only [hammingDistance, h]
  clear h
  revert k
  decide

theorem mem_allNibbles (n : Nibble) : n ∈ allNibbles := by
  refine List.mem_map.mpr ⟨n.toNat, List.mem_range.mpr n.isLt, by simp⟩

theorem le_foldl_min {α : Type} (f : α → Nat) (l : List α) (acc k : Nat) :
    k ≤ l.foldl (fun acc x => min acc (f x)) acc ↔ k ≤ acc ∧ ∀ x ∈ l, k ≤ f x := by
  induction l generalizing acc with
  | nil => simp
  | cons x l ih => simp [ih, and_assoc]

theorem hammingDistance_le_eight (a b : Byte) : hammingDistance a b ≤ 8 := by
  simpa [hammingDistance] using List.countP_le_length (l := List.range 8)

/-- A number is at most the least distance exactly when all different codewords are at least that far apart. -/
theorem le_minDist_iff {t : Tables} {k : Nat} :
    k ≤ t.minDist ↔ k ≤ 8 ∧ ∀ n m, n ≠ m → k ≤ hammingDistance (t.symbol n) (t.symbol m) := by
  have outer : ∀ (l : List Nibble) (acc : Nat),
      k ≤ l.foldl (fun acc n => (allNibbles.filter (· != n)).foldl
        (fun acc m => min acc (hammingDistance (t.symbol n) (t.symbol m))) acc) acc ↔
      k ≤ acc ∧ ∀ n ∈ l, ∀ m, n ≠ m → k ≤ hammingDistance (t.symbol n) (t.symbol m) := fun l => by
    induction l with
    | nil => simp
    | cons n l ih =>
      intro acc
      rw [List.foldl_cons, ih, le_foldl_min]
      simp only [List.mem_filter, mem_allNibbles, true_and, bne_iff_ne, List.forall_mem_cons, and_assoc, ne_comm]
  have := outer allNibbles 8
  simp only [mem_allNibbles, true_implies] at this
  exact this

/-- Membership in the code. -/
theorem isCodeword_iff {t : Tables} {b : Byte} : t.isCodeword b = true ↔ ∃ n, t.symbol n = b := by
  simp [Tables.isCodeword, mem_allNibbles]

@[simp] theorem Tables.repetition_symbol (n : Nibble) :
    Tables.repetition.symbol n = BitVec.ofNat 8 (17 * n.toNat) := by
  simp [Tables.symbol, Tables.repetition]

@[simp] theorem Tables.repetition_nibble (b : Byte) : Tables.repetition.nibble b = BitVec.ofNat 4 (b.toNat / 16) := by
  simp [Tables.nibble, Tables.repetition]

/-- The constraints of R87 can hold together. -/
theorem Tables.repetition_wf : Tables.repetition.WF := by
  simp only [Tables.WF, Tables.Fixed, Tables.Injective, Tables.RoundTrip, Tables.repetition_symbol,
    Tables.repetition_nibble]
  decide

end Sys2Proof
end

