-- ==== Sys2Proof/Laws/State.lean ====
section
/-! SUPPORT. The fields of an updated state, one lemma per field per update. -/

namespace Sys2Proof.Machine

@[simp] theorem State.setMem_cfg (s : State) (m : Memory) : (s.setMem m).cfg = s.cfg := rfl
@[simp] theorem State.setMem_mem (s : State) (m : Memory) : (s.setMem m).mem = m := rfl
@[simp] theorem State.setMem_inputs (s : State) (m : Memory) : (s.setMem m).inputs = s.inputs := rfl
@[simp] theorem State.setMem_results (s : State) (m : Memory) : (s.setMem m).results = s.results := rfl

@[simp] theorem State.respond_cfg (s : State) (r : Result) : (s.respond r).cfg = s.cfg := rfl
@[simp] theorem State.respond_mem (s : State) (r : Result) : (s.respond r).mem = s.mem := rfl
@[simp] theorem State.respond_inputs (s : State) (r : Result) : (s.respond r).inputs = s.inputs := rfl
@[simp] theorem State.respond_results (s : State) (r : Result) : (s.respond r).results = s.results ++ [r] := rfl

@[simp] theorem State.setInputs_cfg (s : State) (l : List HostInput) : (s.setInputs l).cfg = s.cfg := rfl
@[simp] theorem State.setInputs_mem (s : State) (l : List HostInput) : (s.setInputs l).mem = s.mem := rfl
@[simp] theorem State.setInputs_inputs (s : State) (l : List HostInput) : (s.setInputs l).inputs = l := rfl
@[simp] theorem State.setInputs_results (s : State) (l : List HostInput) : (s.setInputs l).results = s.results := rfl

/-- Setting the memory to what it is changes nothing. -/
@[simp] theorem State.setMem_self (s : State) : s.setMem s.mem = s := rfl

/-- The result just returned is the last one. -/
@[simp] theorem State.lastResult_respond (s : State) (r : Result) : (s.respond r).lastResult = some r := by
  simp [State.lastResult]

end Sys2Proof.Machine
end

