-- ==== Sys2Proof/Laws/Exec.lean ====
section
/-! SUPPORT. Everything a command can do, said once (`exec_eq`, `exec_next_iff`, `exec_refused_iff`), and what memory a
completed command leaves, byte by byte (`memoryAfter_spec`). -/

namespace Sys2Proof.Machine

/-- Why a command is refused, if it is (R146 step 2). -/
def refusalOf (policy : OddLenPolicy) : Instr → Option Refusal
  | .encode len cap src dst => if overlaps len cap src dst then some .overlap else none
  | .decode len cap src dst =>
    if oddRefused policy len then some .oddLength
    else if overlaps (decodeSourceSize len) cap src dst then some .overlap else none
  | _ => none

/-- The result a command returns when it is not refused. -/
def completedResult (t : Tables) : Instr → Result
  | .encNibble n => .symOut (t.symbol n)
  | .decSymbol b => .nibOut (t.nibble b)
  | .encSize len => .sizeOut (encodedSize len)
  | .decSize len => .sizeOut (decodedSize len)
  | .encode len cap _ _ => .ret (returnedCount (encodedSize len) cap)
  | .decode len cap _ _ => .ret (returnedCount (decodedSize len) cap)

/-- The memory a command leaves when it is not refused. -/
def memoryAfter (i : Instr) (t : Tables) (m : Memory) : Memory :=
  match i with
  | .encode len cap src dst =>
    if capacityFails (encodedSize len) cap then m else encodeLoop t len src dst m
  | .decode len cap src dst =>
    if capacityFails (decodedSize len) cap then m else decodeLoop t (decodedSize len) src dst m
  | _ => m

/-- The guard and the transfer in one equation (R101, R121, R141). -/
theorem transfer_eq (need cap : Nat) (loop : Memory → Memory) (s : State) :
    transfer need cap loop s =
      .next ((s.setMem (if capacityFails need cap then s.mem else loop s.mem)).respond
        (.ret (returnedCount need cap))) := by
  unfold transfer returnedCount
  split <;> rfl

/-- A command is refused, or completes with its result and its memory. -/
theorem exec_eq (i : Instr) (s : State) :
    exec i s = match refusalOf s.cfg.oddLenPolicy i with
      | some r => .refused r
      | none => .next ((s.setMem (memoryAfter i s.cfg.tables s.mem)).respond (completedResult s.cfg.tables i)) := by
  cases i with
  | encode len cap src dst =>
    simp only [exec, execEncode, refusalOf, transfer_eq]
    split <;> rfl
  | decode len cap src dst =>
    simp only [exec, execDecode, refusalOf, transfer_eq]
    split
    · rfl
    · split <;> rfl
  | _ => rfl

theorem exec_next_iff {i : Instr} {s t : State} :
    exec i s = .next t ↔ refusalOf s.cfg.oddLenPolicy i = none ∧
      t = (s.setMem (memoryAfter i s.cfg.tables s.mem)).respond (completedResult s.cfg.tables i) := by
  rw [exec_eq]
  cases refusalOf s.cfg.oddLenPolicy i <;> simp [eq_comm]

theorem exec_refused_iff {i : Instr} {s : State} {r : Refusal} :
    exec i s = .refused r ↔ refusalOf s.cfg.oddLenPolicy i = some r := by
  rw [exec_eq]
  cases refusalOf s.cfg.oddLenPolicy i <;> simp

/-- No command faults (R140). -/
theorem exec_cases (i : Instr) (s : State) : (∃ t, exec i s = .next t) ∨ ∃ r, exec i s = .refused r := by
  rw [exec_eq]
  cases refusalOf s.cfg.oddLenPolicy i <;> simp

theorem refusalOf_encode_eq_none_iff {p : OddLenPolicy} {len cap src dst : Nat} :
    refusalOf p (.encode len cap src dst) = none ↔ overlaps len cap src dst = false := by
  simp [refusalOf]

theorem refusalOf_decode_eq_none_iff {p : OddLenPolicy} {len cap src dst : Nat} :
    refusalOf p (.decode len cap src dst) = none ↔
      overlaps (decodeSourceSize len) cap src dst = false ∧ (len % 2 = 0 ∨ p = .ignoreTrailing) := by
  rw [← oddRefused_eq_false_iff]
  cases h : overlaps (decodeSourceSize len) cap src dst <;> cases h' : oddRefused p len <;> simp [refusalOf, h, h']

/-- The byte a command stores at an offset of its destination. -/
def storedByte (i : Instr) (t : Tables) (m : Memory) (k : Nat) : Byte :=
  match i with
  | .encode _ _ src _ => encodedByte t m src k
  | .decode _ _ src _ => decodedByte t m src k
  | _ => 0

/-- The memory a completed command leaves: canonical, with the stored bytes in the stored region and every other byte
as before. -/
theorem memoryAfter_spec {i : Instr} {p : OddLenPolicy} {t : Tables} {m : Memory} (hm : m.wf)
    (hi : refusalOf p i = none) :
    (memoryAfter i t m).wf ∧ ∀ a, (memoryAfter i t m).read a =
      if (storedRegion i).holds a then storedByte i t m (a - (storedRegion i).base) else m.read a := by
  have nothing : ∀ {base : Nat} (f : Nat → Byte), m.wf ∧ ∀ a, m.read a =
      if (Region.mk base 0).holds a then f a else m.read a := fun f =>
    ⟨hm, fun a => by rw [if_neg (by simp only [Region.holds]; omega)]⟩
  cases i with
  | encode len cap src dst =>
    have hd := refusalOf_encode_eq_none_iff.mp hi
    cases hc : capacityFails (encodedSize len) cap with
    | true =>
      simp only [memoryAfter, hc, storedRegion, returnedCount_of_fails hc, if_true]
      exact nothing _
    | false =>
      simp only [memoryAfter, hc, storedRegion, returnedCount_of_fits hc]
      exact encodeLoop_spec hm fun k hk => source_not_in_destination hd hk (capacityFails_eq_false_iff.mp hc)
  | decode len cap src dst =>
    have hd := (refusalOf_decode_eq_none_iff.mp hi).1
    cases hc : capacityFails (decodedSize len) cap with
    | true =>
      simp only [memoryAfter, hc, storedRegion, returnedCount_of_fails hc, if_true]
      exact nothing _
    | false =>
      simp only [memoryAfter, hc, storedRegion, returnedCount_of_fits hc]
      exact decodeLoop_spec hm fun k hk => source_not_in_destination hd hk (capacityFails_eq_false_iff.mp hc)
  | _ => exact nothing _

/-- Every command keeps the canonical form. -/
theorem wf_memoryAfter (i : Instr) (t : Tables) {m : Memory} (hm : m.wf) : (memoryAfter i t m).wf := by
  cases i with
  | encode => simp only [memoryAfter]; split; exacts [hm, wf_encodeLoop hm]
  | decode => simp only [memoryAfter]; split; exacts [hm, wf_decodeLoop hm]
  | _ => exact hm

/-- The stored region is the first part of the destination (R44, R48). -/
theorem storedRegion_le (i : Instr) :
    (storedRegion i).base = (destinationRegion i).base ∧ (storedRegion i).size ≤ (destinationRegion i).size := by
  cases i <;> simp [storedRegion, destinationRegion, returnedCount_le]

end Sys2Proof.Machine
end

