-- ==== Sys2Proof/Laws/PerInstr.lean ====
section
/-! SUPPORT. One lemma per command about the command as syntax: its operation code is one of the six that are allocated
(spec/30_encoding.md R61). -/

namespace Sys2Proof.Laws.Allocated

/-- The encoder puts an allocated operation code on the ports. -/
def Statement (i : Instr) : Prop :=
  (encodePorts i).op = i.opCode ∧ i.opCode ≠ 6 ∧ i.opCode ≠ 7

theorem encNibble (n : Nibble) : Statement (.encNibble n) := by simp [Statement, encodePorts, Ports.idle, Instr.opCode]
theorem decSymbol (b : Byte) : Statement (.decSymbol b) := by simp [Statement, encodePorts, Ports.idle, Instr.opCode]
theorem encSize (len : Nat) : Statement (.encSize len) := by simp [Statement, encodePorts, Ports.idle, Instr.opCode]
theorem decSize (len : Nat) : Statement (.decSize len) := by simp [Statement, encodePorts, Ports.idle, Instr.opCode]
theorem encode (len cap src dst : Nat) : Statement (.encode len cap src dst) := by simp [Statement, encodePorts, Ports.idle, Instr.opCode]
theorem decode (len cap src dst : Nat) : Statement (.decode len cap src dst) := by simp [Statement, encodePorts, Ports.idle, Instr.opCode]

end Sys2Proof.Laws.Allocated
end

