-- ==== Sys2Proof/Laws/Step.lean ====
section
/-! SUPPORT. Everything one step can do, said once, by what stands first among the host's inputs. -/

namespace Sys2Proof.Machine

theorem step_of_nil {s : State} (h : s.inputs = []) : step s = .next s := by
  simp [step, fetch, h]

theorem step_of_store {s : State} {addr : Nat} {bytes : List Byte} {rest : List HostInput}
    (h : s.inputs = .store addr bytes :: rest) :
    step s = .next ((s.setMem (s.mem.writeBytes addr bytes)).setInputs rest) := by
  simp [step, fetch, h]

theorem step_of_accepted {s : State} {p : Ports} {rest : List HostInput} {i : Instr}
    (h : s.inputs = .command p :: rest) (hi : accept s.cfg.lenBits p = .ok i) :
    step s = exec i (s.setInputs rest) := by
  simp [step, fetch, h, hi]

theorem step_of_rejected {s : State} {p : Ports} {rest : List HostInput} {r : Refusal}
    (h : s.inputs = .command p :: rest) (hr : accept s.cfg.lenBits p = .error r) : step s = .refused r := by
  simp [step, fetch, h, hr]

/-- A command is accepted when it decodes and its operands fit. -/
theorem accept_ok_iff {bits : Nat} {p : Ports} {i : Instr} :
    accept bits p = .ok i ↔ decodePorts p = .ok i ∧ i.wellFormed bits = true := by
  unfold accept
  split
  · simp_all
  · rename_i j hj
    rw [hj]
    split
    · constructor
      · rintro ⟨⟩; exact ⟨rfl, ‹_›⟩
      · rintro ⟨⟨⟩, -⟩; rfl
    · constructor
      · nofun
      · rintro ⟨⟨⟩, h⟩; contradiction

/-- What a step that answers a next state has done. -/
theorem step_next_cases {s t : State} (h : step s = .next t) :
    (s.inputs = [] ∧ t = s) ∨
    (∃ addr bytes rest, s.inputs = .store addr bytes :: rest ∧
      t = (s.setMem (s.mem.writeBytes addr bytes)).setInputs rest) ∨
    ∃ p rest i, s.inputs = .command p :: rest ∧ accept s.cfg.lenBits p = .ok i ∧
      exec i (s.setInputs rest) = .next t := by
  match hin : s.inputs with
  | [] =>
    rw [step_of_nil hin] at h
    exact .inl ⟨rfl, by injection h with h; exact h.symm⟩
  | .store addr bytes :: rest =>
    rw [step_of_store hin] at h
    exact .inr (.inl ⟨addr, bytes, rest, rfl, by injection h with h; exact h.symm⟩)
  | .command p :: rest =>
    cases hd : accept s.cfg.lenBits p with
    | error r => rw [step_of_rejected hin hd] at h; cases h
    | ok i => exact .inr (.inr ⟨p, rest, i, rfl, hd, step_of_accepted hin hd ▸ h⟩)

end Sys2Proof.Machine
end

