-- ==== Sys2Proof/Machine/Text.lean ====
section
/-! DEFINITION. The textual form of commands and results (spec/30_encoding.md R66), a way of writing vectors down; no step
depends on it. -/

namespace Sys2Proof.Machine

/-- One hexadecimal digit, in capitals as the vectors have it. -/
def hexDigit (n : Nibble) : String :=
  String.singleton ("0123456789ABCDEF".toList.getD n.toNat '0')

/-- A nibble, `0xA`. -/
def textNibble (n : Nibble) : String :=
  "0x" ++ hexDigit n

/-- A byte, `0xA5`. -/
def textByte (b : Byte) : String :=
  "0x" ++ hexDigit (highNibble b) ++ hexDigit (lowNibble b)

/-- A buffer, `[0xAA 0x55]`. -/
def textBytes (bs : List Byte) : String :=
  "[" ++ String.intercalate " " (bs.map textByte) ++ "]"

/-- A command in the syntax of R66, its source buffer listed from the memory it lies in. -/
def commandText (m : Memory) (i : Instr) : String :=
  i.mnemonic ++ " " ++
    match i with
    | .encNibble n => textNibble n
    | .decSymbol b => textByte b
    | .encSize len => toString len
    | .decSize len => toString len
    | .encode len cap src _ => "src=" ++ textBytes (m.readBytes src len) ++ " cap=" ++ toString cap
    | .decode len cap src _ => "src=" ++ textBytes (m.readBytes src len) ++ " cap=" ++ toString cap

/-- The result a command drove. -/
def resultText : Result → String
  | .symOut v => textByte v
  | .nibOut v => textNibble v
  | .sizeOut v => toString v
  | .ret v => "ret=" ++ toString v

/-- What the vectors show after a command: its result and, for a buffer command, all `C` destination bytes (R66). -/
def outcomeText (i : Instr) (r : Result) (after : Memory) : String :=
  match i with
  | .encode _ cap _ dst => resultText r ++ " dst=" ++ textBytes (after.readBytes dst cap)
  | .decode _ cap _ dst => resultText r ++ " dst=" ++ textBytes (after.readBytes dst cap)
  | _ => resultText r

end Sys2Proof.Machine
end

