-- ==== Sys2Proof/Tests/Slice0.lean ====
section
/-! SUPPORT. Tests of the model against the spec's own vectors (spec/95_test_vectors.md), the smoke test of the
well-formedness check, the decoding of words written out from spec/30_encoding.md R61, and for each statement with
hypotheses a witness that meets them. -/

namespace Sys2Proof.Tests

open Sys2Proof.Machine

/-! ### The witness configuration W (a made-up table, not the hardware's: spec/95_test_vectors.md section 3) -/

/-- `SYM_W` (section 3.1). -/
def symW : List Byte :=
  [0x00, 0x0F, 0x33, 0x3C, 0x5A, 0x55, 0x69, 0x66,
    0x99, 0x96, 0xAA, 0xA5, 0xC3, 0xCC, 0xF0, 0xFF]

/-! `DEC_W` (section 3.2), four rows of the printed table a piece. -/

def rows0 : List Nibble :=
  [0x0, 0x0, 0x0, 0x0, 0x0, 0x0, 0x0, 0x1, 0x0, 0x0, 0x0, 0x1, 0x0, 0x1, 0x1, 0x1] ++
  [0x0, 0x0, 0x0, 0x2, 0x0, 0x5, 0x9, 0x1, 0x0, 0x8, 0x4, 0x1, 0x3, 0x1, 0x1, 0x1] ++
  [0x0, 0x0, 0x0, 0x2, 0x0, 0xB, 0x7, 0x1, 0x0, 0x6, 0xA, 0x1, 0x3, 0x1, 0x1, 0x1] ++
  [0x0, 0x2, 0x2, 0x2, 0x3, 0x2, 0x2, 0x2, 0x3, 0x2, 0x2, 0x2, 0x3, 0x3, 0x3, 0x1]

def rows1 : List Nibble :=
  [0x0, 0x0, 0x0, 0xC, 0x0, 0x5, 0x7, 0x1, 0x0, 0x6, 0x4, 0x1, 0xD, 0x1, 0x1, 0x1] ++
  [0x0, 0x5, 0x4, 0x2, 0x5, 0x5, 0x4, 0x5, 0x4, 0x4, 0x4, 0x4, 0x3, 0x5, 0x4, 0x1] ++
  [0x0, 0x6, 0x7, 0x2, 0x7, 0x5, 0x7, 0x7, 0x6, 0x6, 0x4, 0x6, 0x3, 0x6, 0x7, 0x1] ++
  [0xE, 0x2, 0x2, 0x2, 0x3, 0x5, 0x7, 0x2, 0x3, 0x6, 0x4, 0x2, 0x3, 0x3, 0x3, 0xF]

def rows2 : List Nibble :=
  [0x0, 0x0, 0x0, 0xC, 0x0, 0xB, 0x9, 0x1, 0x0, 0x8, 0xA, 0x1, 0xD, 0x1, 0x1, 0x1] ++
  [0x0, 0x8, 0x9, 0x2, 0x9, 0x5, 0x9, 0x9, 0x8, 0x8, 0x4, 0x8, 0x3, 0x8, 0x9, 0x1] ++
  [0x0, 0xB, 0xA, 0x2, 0xB, 0xB, 0x7, 0xB, 0xA, 0x6, 0xA, 0xA, 0x3, 0xB, 0xA, 0x1] ++
  [0xE, 0x2, 0x2, 0x2, 0x3, 0xB, 0x9, 0x2, 0x3, 0x8, 0xA, 0x2, 0x3, 0x3, 0x3, 0xF]

def rows3 : List Nibble :=
  [0x0, 0xC, 0xC, 0xC, 0xD, 0x5, 0x7, 0xC, 0xD, 0x6, 0x4, 0xC, 0xD, 0xD, 0xD, 0x1] ++
  [0xE, 0x5, 0x4, 0xC, 0x5, 0x5, 0x9, 0x5, 0x4, 0x8, 0x4, 0x4, 0xD, 0x5, 0x4, 0xF] ++
  [0xE, 0x6, 0x7, 0xC, 0x7, 0xB, 0x7, 0x7, 0x6, 0x6, 0xA, 0x6, 0xD, 0x6, 0x7, 0xF] ++
  [0xE, 0xE, 0xE, 0x2, 0xE, 0x5, 0x7, 0xF, 0xE, 0x6, 0x4, 0xF, 0x3, 0xF, 0xF, 0xF]

/-- The two tables of W. -/
def tablesW : Tables where
  sym := ⟨symW.toArray, rfl⟩
  dec := ⟨(rows0 ++ rows1 ++ rows2 ++ rows3).toArray, by decide +kernel⟩

/-- A small state: tables W, ports of 8 bits, the given policy, `bytes` at address 16 of the host's memory and the poison
byte of the vectors at the addresses 32 to 35. -/
def bench (policy : OddLenPolicy) (bytes : List Byte) : State where
  cfg := ⟨tablesW, 8, policy, .evenHigh⟩
  mem := (Memory.writeBytes [] 32 [0xEE, 0xEE, 0xEE, 0xEE]).writeBytes 16 bytes
  inputs := []
  results := []

/-- The outcome is a next state that passes `p`. -/
def answers (o : Host.Outcome State Fault Refusal) (p : State → Bool) : Bool :=
  match o with
  | .next t => p t
  | .refused _ => false

/-- The outcome is the refusal `r`. -/
def refuses (o : Host.Outcome State Fault Refusal) (r : Refusal) : Bool :=
  match o with
  | .refused q => q == r
  | .next _ => false

theorem forall_bitVec {w : Nat} {p : BitVec w → Prop} (h : ∀ k ∈ List.range (2 ^ w), p (BitVec.ofNat w k)) (v : BitVec w) :
    p v := by
  have := h v.toNat (List.mem_range.mpr v.isLt)
  rwa [BitVec.ofNat_toNat, BitVec.setWidth_eq] at this

theorem tablesW_wf : tablesW.WF := by decide +kernel

theorem tablesW_minDist : 4 ≤ tablesW.minDist :=
  le_minDist_iff.mpr ⟨by decide, forall_bitVec (by decide +kernel)⟩

/-- "No byte is farther than 2 from a codeword" (section 3.1), and its decoding names such a codeword. -/
theorem tablesW_near : ∀ b : Byte, hammingDistance b (tablesW.symbol (tablesW.nibble b)) ≤ 2 :=
  forall_bitVec (by decide +kernel)

theorem tablesW_nearest : tablesW.Nearest := by
  intro b m
  by_cases h : tablesW.nibble b = m
  · rw [h]
  · have far := (le_minDist_iff.mp tablesW_minDist).2 _ _ h
    have near := tablesW_near b
    have tri := hammingDistance_triangle (tablesW.symbol (tablesW.nibble b)) b (tablesW.symbol m)
    rw [hammingDistance_comm _ b] at tri
    omega

theorem tablesW_singleBitCorrecting : tablesW.SingleBitCorrecting :=
  forall_bitVec (by decide +kernel)

/-! ### Well-formedness: one ill-formed term for each check, beside the largest operand that fits (R27) -/

theorem test_wellFormed_encSize : (Instr.encSize 255).wellFormed 8 = true ∧ (Instr.encSize 256).wellFormed 8 = false := by
  decide
theorem test_wellFormed_decSize : (Instr.decSize 255).wellFormed 8 = true ∧ (Instr.decSize 256).wellFormed 8 = false := by
  decide
theorem test_wellFormed_encode : (Instr.encode 255 255 0 0).wellFormed 8 = true ∧
    (Instr.encode 256 255 0 0).wellFormed 8 = false ∧ (Instr.encode 255 256 0 0).wellFormed 8 = false := by
  decide
theorem test_wellFormed_decode : (Instr.decode 255 255 0 0).wellFormed 8 = true ∧
    (Instr.decode 256 255 0 0).wellFormed 8 = false ∧ (Instr.decode 255 256 0 0).wellFormed 8 = false := by
  decide

/-! ### Decoding: the operation codes of R61 with operands on the ports of R21 (T50, T51) -/

theorem test_decode_encNibble :
    decodePorts { op := 0b000, n := 0xA, b := 0x12, len := 3, cap := 4, src := 5, dst := 6 } = .ok (.encNibble 0xA) := by
  decide
theorem test_decode_decSymbol :
    decodePorts { op := 0b001, n := 0xA, b := 0x12, len := 3, cap := 4, src := 5, dst := 6 } = .ok (.decSymbol 0x12) := by
  decide
theorem test_decode_encSize :
    decodePorts { op := 0b010, n := 0xA, b := 0x12, len := 3, cap := 4, src := 5, dst := 6 } = .ok (.encSize 3) := by
  decide
theorem test_decode_decSize :
    decodePorts { op := 0b011, n := 0xA, b := 0x12, len := 3, cap := 4, src := 5, dst := 6 } = .ok (.decSize 3) := by
  decide
theorem test_decode_encode :
    decodePorts { op := 0b100, n := 0xA, b := 0x12, len := 3, cap := 4, src := 5, dst := 6 } = .ok (.encode 3 4 5 6) := by
  decide
theorem test_decode_decode :
    decodePorts { op := 0b101, n := 0xA, b := 0x12, len := 3, cap := 4, src := 5, dst := 6 } = .ok (.decode 3 4 5 6) := by
  decide
theorem test_decode_reserved :
    decodePorts (Ports.idle 0b110) = .error (.reservedOp 6) ∧ decodePorts (Ports.idle 0b111) = .error (.reservedOp 7) := by
  decide

/-! ### Vectors of spec/95_test_vectors.md -/

/-- S3 (T1, T2), and `SYM_W` at both ends (W1). -/
theorem test_encNibble : ([0xA, 0x5, 0x0, 0xF].all fun n =>
    answers (exec (.encNibble n) (bench .refuse [])) fun t => t.results == [.symOut (symW.getD n.toNat 0)]) = true ∧
    symW.getD 0xA 0 = 0xAA ∧ symW.getD 5 0 = 0x55 := by
  decide +kernel

/-- T5, T6, and W5, W10, W12, W14: a corrected flip, a silent miscorrection and two ties. -/
theorem test_decSymbol :
    ([(0x55, 0x5), (0xAA, 0xA), (0xAB, 0xA), (0xA9, 0x6), (0x03, 0x0), (0x7E, 0x3)].all fun x : Byte × Nibble =>
      answers (exec (.decSymbol x.1) (bench .refuse [])) fun t => t.results == [.nibOut x.2]) = true := by
  decide +kernel

/-- T11, T13, T14. -/
theorem test_encSize : ([(0, 0), (7, 14), (255, 510)].all fun x : Nat × Nat =>
    answers (exec (.encSize x.1) (bench .refuse [])) fun t => t.results == [.sizeOut x.2]) = true := by
  decide

/-- T15, T16, T18 (and F8), T19. -/
theorem test_decSize : ([(0, 0), (1, 0), (5, 2), (14, 7)].all fun x : Nat × Nat =>
    answers (exec (.decSize x.1) (bench .refuse [])) fun t => t.results == [.sizeOut x.2]) = true := by
  decide

/-- T25 (and F2): excess capacity, the tail untouched; and T31, whose output mirrors it (F3). -/
theorem test_encode_succeeds :
    answers (exec (.encode 1 3 16 32) (bench .refuse [0xA5])) (fun t =>
      t.results == [.ret 2] && t.mem.readBytes 32 4 == [0xAA, 0x55, 0xEE, 0xEE]) = true ∧
    answers (exec (.encode 1 2 16 32) (bench .refuse [0x5A])) (fun t => t.mem.readBytes 32 2 == [0x55, 0xAA]) = true := by
  decide +kernel

/-- T23 (and F5, F7): one byte short; T28: empty with capacity; T34: overlapping regions. -/
theorem test_encode_corners :
    answers (exec (.encode 1 1 16 32) (bench .refuse [0xA5])) (fun t =>
      t.results == [.ret 0] && t.mem == (bench .refuse [0xA5]).mem) = true ∧
    answers (exec (.encode 0 3 16 32) (bench .refuse [])) (fun t =>
      t.results == [.ret 0] && t.mem.readBytes 32 3 == [0xEE, 0xEE, 0xEE]) = true ∧
    refuses (exec (.encode 2 4 16 17) (bench .refuse [])) .overlap = true := by
  decide +kernel

/-- W16 (and F4): non-codewords decoded silently, the tail untouched; W17: two tied bytes. -/
theorem test_decode_succeeds :
    answers (exec (.decode 4 3 16 32) (bench .refuse [0xAA, 0x55, 0x12, 0x34])) (fun t =>
      t.results == [.ret 2] && t.mem.readBytes 32 3 == [0xA5, 0x03, 0xEE]) = true ∧
    answers (exec (.decode 2 1 16 32) (bench .refuse [0x17, 0xE8])) (fun t => t.mem.readBytes 32 1 == [0x16]) = true := by
  decide +kernel

/-- T41: one byte short; T44, T45: an odd length under each policy; T45 again with the destination on the
never-read third byte, as `DECODE` of the first two bytes allows (R125); T49: overlapping regions. -/
theorem test_decode_corners :
    answers (exec (.decode 4 1 16 32) (bench .refuse [0xAA, 0x55, 0x55, 0xAA])) (fun t =>
      t.results == [.ret 0] && t.mem.readBytes 32 1 == [0xEE]) = true ∧
    refuses (exec (.decode 3 1 16 32) (bench .refuse [0xAA, 0x55, 0xAA])) .oddLength = true ∧
    answers (exec (.decode 3 1 16 32) (bench .ignoreTrailing [0xAA, 0x55, 0xAA])) (fun t =>
      t.results == [.ret 1] && t.mem.readBytes 32 1 == [0xA5]) = true ∧
    answers (exec (.decode 3 1 16 18) (bench .ignoreTrailing [0xAA, 0x55, 0xAA])) (fun t =>
      t.results == [.ret 1] && t.mem.readBytes 16 3 == [0xAA, 0x55, 0xA5]) = true ∧
    refuses (exec (.decode 2 1 16 17) (bench .refuse [])) .overlap = true := by
  decide +kernel

/-- `PK_W` (section 3.3): the first line of the printed bytes in one order and with its halves swapped in the other. -/
theorem test_pack :
    (tablesW.pack .evenHigh).toList.take 16 = [0x00, 0x00, 0x00, 0x01, 0x00, 0x01, 0x01, 0x11,
      0x00, 0x02, 0x05, 0x91, 0x08, 0x41, 0x31, 0x11] ∧
    (tablesW.pack .evenLow).toList.take 16 = [0x00, 0x00, 0x00, 0x10, 0x00, 0x10, 0x10, 0x11,
      0x00, 0x20, 0x50, 0x19, 0x80, 0x14, 0x13, 0x11] := by
  decide +kernel

/-- T25 in the syntax of R66. -/
theorem test_text :
    commandText (bench .refuse [0xA5]).mem (.encode 1 3 16 32) = "ENCODE src=[0xA5] cap=3" ∧
    answers (exec (.encode 1 3 16 32) (bench .refuse [0xA5])) (fun t =>
      outcomeText (.encode 1 3 16 32) (.ret 2) t.mem == "ret=2 dst=[0xAA 0x55 0xEE]") = true := by
  decide +kernel

/-- The accesses of T22 in program order (R48, R50, R102). -/
theorem test_accesses : accesses (.encode 1 2 16 32) (bench .refuse [0xA5]) =
    [.readSrc 0, .readSym 0xA, .writeDst 0 0xAA, .readSym 0x5, .writeDst 1 0x55] := by
  decide +kernel

/-- The host's probe on the reset machine: a word of the table placed by `withFetchWord` is run by the next step. -/
theorem test_withFetchWord : ([0, 1, 2, 3, 4, 5].all fun w =>
    answers (step (State.reset.withFetchWord 8 w)) fun t => t.inputs.isEmpty && t.results.length == 1) = true ∧
    refuses (step (State.reset.withFetchWord 8 6)) (.reservedOp 6) = true := by
  decide +kernel

/-! ### Witnesses: for each statement of Certificates/Slice0/Obligations.lean that has hypotheses, a state and operands
that meet them together, clause by clause and at the ends of the ranges -/

/-- The bench state with the host's inputs in place. -/
def presenting (inputs : List HostInput) : State :=
  (bench .refuse [0xA5]).setInputs inputs

/-- A command on the ports. -/
def present (i : Instr) : HostInput :=
  .command (encodePorts i)

theorem bench_wf : (bench .refuse [0xA5]).mem.wf ∧ (bench .refuse [0xAA, 0x55]).mem.wf ∧
    (bench .ignoreTrailing [0xAA, 0x55, 0xAA]).mem.wf := by
  decide +kernel

theorem witness_DecodingLooksAtOpAlone :
    (Ports.idle 5).op = (encodePorts (.decode 4 2 16 32)).op ∧
    decodePorts (Ports.idle 5) = .ok (.decode 0 0 0 0) := by
  decide

theorem witness_ReservedOpRefused :
    (presenting [.command (Ports.idle 6)]).inputs = [.command (Ports.idle 6)] ∧ (Ports.idle 6).op = 6 ∧
    (presenting [.command (Ports.idle 7)]).inputs = [.command (Ports.idle 7)] ∧ (Ports.idle 7).op = 7 ∧
    ¬((Ports.idle 5).op = 6 ∨ (Ports.idle 5).op = 7) := by
  decide

theorem witness_StepRunsDecodedCommand :
    (presenting [present (.encode 255 255 0 1000)]).inputs = [present (.encode 255 255 0 1000)] ∧
    decodePorts (encodePorts (.encode 255 255 0 1000)) = .ok (.encode 255 255 0 1000) ∧
    (Instr.encode 255 255 0 1000).wellFormed (presenting []).cfg.lenBits = true ∧
    decodeTableWord 8 5 = some (.decode 0 0 0 0) := by
  decide

theorem witness_StepRefusesWideOperands :
    (presenting [present (.encSize 256)]).inputs = [present (.encSize 256)] ∧
    decodePorts (encodePorts (.encSize 256)) = .ok (.encSize 256) ∧
    (Instr.encSize 256).wellFormed (presenting []).cfg.lenBits = false := by
  decide

theorem witness_IdleAndHostStore :
    (presenting []).inputs = [] ∧ (presenting [.store 16 [0x5A]]).inputs = [.store 16 [0x5A]] ∧
    (presenting [.store 16 [0x5A]]).mem.wf :=
  ⟨rfl, rfl, bench_wf.1⟩

theorem witness_StepKeepsInv :
    (presenting [present (.encode 1 2 16 32)]).Inv ∧
    ∃ t, step (presenting [present (.encode 1 2 16 32)]) = .next t :=
  ⟨⟨⟨tablesW_wf, by decide⟩, bench_wf.1, by simp [presenting, bench]⟩, _, rfl⟩

theorem witness_RunsKeepConfiguration :
    ∃ t, run 2 (presenting [.store 16 [0x5A], present (.encode 1 2 16 32)]) = .next t :=
  ⟨_, rfl⟩

theorem witness_RunEndsWithInputs :
    (∃ t, run (presenting [.store 16 [0x5A], present (.encode 1 2 16 32)]).inputs.length
      (presenting [.store 16 [0x5A], present (.encode 1 2 16 32)]) = .next t) ∧
    ∃ u r, run 1 (presenting [present (.encode 1 2 16 32), present (.decode 1 1 32 48)]) = .next u ∧
      step u = .refused r :=
  ⟨⟨_, rfl⟩, _, _, rfl, rfl⟩

theorem witness_EncNibbleReturnsSymbol : (bench .refuse []).cfg.tables.Fixed := tablesW_wf.1

theorem witness_DecSymbolReturnsNibble :
    (bench .refuse []).cfg.tables.RoundTrip ∧ (bench .refuse []).cfg.tables.WF ∧
    (bench .refuse []).cfg.tables.Nearest :=
  ⟨tablesW_wf.2.2, tablesW_wf, tablesW_nearest⟩

theorem witness_SixteenCodewords : tablesW.Injective := tablesW_wf.2.1

theorem witness_ReverseTableOnto : tablesW.Fixed ∧ tablesW.RoundTrip := ⟨tablesW_wf.1, tablesW_wf.2.2⟩

theorem witness_NearestImpliesRoundTrip : tablesW.Injective ∧ tablesW.Nearest := ⟨tablesW_wf.2.1, tablesW_nearest⟩

theorem witness_PackingCarriesNoMeaning :
    PackOrder.evenHigh ≠ .evenLow ∧ tablesW.SingleBitCorrecting ∧
    tablesW.pack .evenLow = { tablesW with sym := Vector.replicate 16 0 }.pack .evenLow :=
  ⟨by decide, tablesW_singleBitCorrecting, rfl⟩

theorem witness_EncSizeDoubles :
    255 < 2 ^ 8 ∧ 2 ^ 8 ≤ 2 * 128 ∧ 255 < 2 ^ 8 ∧ overlaps 128 255 0 128 = false := by
  decide

theorem witness_DecSizeHalves : 1 ≤ 1 ∧ 1 < 2 ^ 1 := by decide

/-- Both branches of the guard: one byte short and an exact fit. -/
theorem witness_EncodeIsItsFunction :
    (bench .refuse [0xA5]).mem.wf ∧ overlaps 1 1 16 32 = false ∧ overlaps 1 2 16 32 = false ∧ 0 < [0xA5].length :=
  ⟨bench_wf.1, by decide⟩

/-- One byte short; an exact fit, which has no tail; and one byte more, whose tail is offset 2. -/
theorem witness_EncodeCapacityGuard :
    (bench .refuse [0xA5]).mem.wf ∧ (overlaps 1 1 16 32 = false ∧ 1 < 2 * 1) ∧
    (overlaps 1 2 16 32 = false ∧ 2 * 1 ≤ 2) ∧ (overlaps 1 3 16 32 = false ∧ 2 * 1 ≤ 3 ∧ 2 * 1 ≤ 2 ∧ 2 < 3) :=
  ⟨bench_wf.1, by decide⟩

theorem witness_EncodeWritesCodewords :
    (bench .refuse [0xA5]).mem.wf ∧ overlaps 1 2 16 32 = false ∧ 2 * 1 ≤ 2 ∧ 1 < 2 * 1 :=
  ⟨bench_wf.1, by decide⟩

theorem witness_DecodeIsItsFunction :
    (bench .refuse [0xAA, 0x55]).mem.wf ∧ 2 % 2 = 0 ∧ overlaps 2 0 16 32 = false ∧ overlaps 2 1 16 32 = false ∧
    2 * 0 + 1 < [0xAA, 0x55].length ∧ [0xAA, 0x55].length % 2 = 0 :=
  ⟨bench_wf.2.1, by decide⟩

/-- An even length under `refuse` and an odd one under `ignore_trailing`, each one byte short and with a tail. -/
theorem witness_DecodeCapacityGuard :
    (bench .refuse [0xAA, 0x55]).mem.wf ∧ (bench .ignoreTrailing [0xAA, 0x55, 0xAA]).mem.wf ∧
    (2 % 2 = 0 ∧ overlaps 2 0 16 32 = false ∧ 0 < 2 / 2) ∧
    ((bench .ignoreTrailing []).cfg.oddLenPolicy = .ignoreTrailing ∧ overlaps 3 0 16 32 = false ∧ 0 < 3 / 2) ∧
    (overlaps 2 2 16 32 = false ∧ 2 / 2 ≤ 2 ∧ 2 / 2 ≤ 1 ∧ 1 < 2) ∧
    (overlaps 3 2 16 32 = false ∧ 3 / 2 ≤ 2 ∧ 3 / 2 ≤ 1 ∧ 1 < 2) :=
  ⟨bench_wf.2.1, bench_wf.2.2, by decide⟩

/-- Both policies; under `ignore_trailing` an empty and a shared last byte. -/
theorem witness_DecodeOddLength :
    (1 % 2 = 1 ∧ (bench .refuse []).cfg.oddLenPolicy = .refuse ∧ overlaps 1 1 16 32 = false ∧
      overlaps 1 1 16 16 = true) ∧
    (1 % 2 = 1 ∧ 3 % 2 = 1 ∧ (bench .ignoreTrailing []).cfg.oddLenPolicy = .ignoreTrailing ∧
      overlaps (1 - 1) 1 16 16 = false ∧ overlaps (3 - 1) 1 16 18 = false) ∧
    accesses (.decode 3 1 16 18) (bench .ignoreTrailing [0xAA, 0x55, 0xAA]) ≠ [] := by
  decide +kernel

theorem witness_DecodeNeverFailsOnContent :
    (bench .refuse [0xAA, 0x55]).mem.wf ∧ 2 % 2 = 0 ∧ overlaps 2 1 16 32 = false ∧ 2 / 2 ≤ 1 ∧ 0 < 2 / 2 :=
  ⟨bench_wf.2.1, by decide⟩

/-- Each outcome of the table, for each buffer command; the small commands always succeed. -/
theorem witness_OutcomesMatchTable :
    (tableOutcome .refuse (.encNibble 0) = .succeeds ∧ tableOutcome .refuse (.encode 1 2 16 32) = .succeeds ∧
      tableOutcome .refuse (.decode 2 1 16 32) = .succeeds ∧ tableOutcome .ignoreTrailing (.decode 3 1 16 18) = .succeeds) ∧
    (tableOutcome .refuse (.encode 1 1 16 32) = .failsOnCapacity ∧
      tableOutcome .refuse (.decode 2 0 16 32) = .failsOnCapacity) ∧
    (tableOutcome .refuse (.encode 1 1 16 16) = .refused ∧ tableOutcome .refuse (.decode 1 1 16 32) = .refused) ∧
    (presenting [.command (Ports.idle 7)]).inputs = [.command (Ports.idle 7)] ∧ (Ports.idle 7).op = 7 := by
  decide

/-- Regions that share one address, and regions that touch without sharing one; an odd length under `ignore_trailing`
with a shared address before its trailing byte, and with that byte shared alone. -/
theorem witness_OverlapRefused :
    (16 ≤ 17 ∧ 17 < 16 + 2 ∧ 17 ≤ 17 ∧ 17 < 17 + 4 ∧ 2 % 2 = 0) ∧
    (16 ≤ 17 ∧ 17 < 16 + 3 ∧ 3 % 2 = 1 ∧ (bench .ignoreTrailing []).cfg.oddLenPolicy = .ignoreTrailing ∧
      17 ≠ 16 + (3 - 1)) ∧
    (bench .refuse [0xA5]).mem.wf ∧ (bench .ignoreTrailing [0xAA, 0x55, 0xAA]).mem.wf ∧
    (∃ t, exec (.encode 2 4 16 18) (bench .refuse [0xA5]) = .next t) ∧
    (∃ t, exec (.decode 2 4 16 18) (bench .refuse [0xA5]) = .next t ∧ overlaps 2 4 16 18 = false) ∧
    ∃ t, exec (.decode 3 1 16 18) (bench .ignoreTrailing [0xAA, 0x55, 0xAA]) = .next t :=
  ⟨by decide, by decide, bench_wf.1, bench_wf.2.2, ⟨_, rfl⟩, ⟨_, rfl, by decide⟩, _, rfl⟩

theorem witness_ZeroReturnAndFailure :
    overlaps 1 1 16 32 = false ∧ overlaps 1 2 16 32 = false ∧ overlaps 0 0 16 16 = false ∧
    (overlaps 2 0 16 32 = false ∧ 2 % 2 = 0) ∧
    (overlaps 1 0 16 32 = false ∧ (bench .ignoreTrailing []).cfg.oddLenPolicy = .ignoreTrailing) := by
  decide

/-- A command of each shape completes: two that store, one that fails on capacity, and the four that store nothing. -/
theorem witness_CommandFrame :
    (bench .refuse [0xA5]).mem.wf ∧
    (∃ t, exec (.encode 1 2 16 32) (bench .refuse [0xA5]) = .next t) ∧
    (∃ t, exec (.decode 2 1 16 32) (bench .refuse [0xA5]) = .next t) ∧
    (∃ t, exec (.encode 1 1 16 32) (bench .refuse [0xA5]) = .next t) ∧
    (∃ t, exec (.encNibble 5) (bench .refuse [0xA5]) = .next t) ∧
    (∃ t, exec (.decSymbol 5) (bench .refuse [0xA5]) = .next t) ∧
    (∃ t, exec (.encSize 5) (bench .refuse [0xA5]) = .next t) ∧
    ∃ t, exec (.decSize 5) (bench .refuse [0xA5]) = .next t :=
  ⟨bench_wf.1, ⟨_, rfl⟩, ⟨_, rfl⟩, ⟨_, rfl⟩, ⟨_, rfl⟩, ⟨_, rfl⟩, ⟨_, rfl⟩, _, rfl⟩

theorem witness_AccessesOncePerOffset :
    (overlaps 1 2 16 32 = false ∧ 2 * 1 ≤ 2) ∧ (2 % 2 = 0 ∧ overlaps (decodeSourceSize 2) 1 16 32 = false ∧ 2 / 2 ≤ 1) ∧
    ((bench .ignoreTrailing []).cfg.oddLenPolicy = .ignoreTrailing ∧ overlaps (decodeSourceSize 3) 1 16 18 = false ∧
      3 / 2 ≤ 1) ∧
    tableOutcome .refuse (.encode 1 1 16 32) ≠ .succeeds ∧ tableOutcome .refuse (.decode 1 1 16 32) ≠ .succeeds := by
  decide

theorem witness_AccessesExplainMemory :
    (bench .refuse [0xA5]).mem.wf ∧ ∃ t, exec (.encode 1 2 16 32) (bench .refuse [0xA5]) = .next t :=
  ⟨bench_wf.1, _, rfl⟩

/-- Two states with different histories; a command that completes and one that is refused. -/
theorem witness_HistoryInvisible :
    ((presenting [present (.encSize 1)]).respond (.ret 0)).cfg = (bench .refuse [0xA5]).cfg ∧
    ((presenting [present (.encSize 1)]).respond (.ret 0)).mem = (bench .refuse [0xA5]).mem ∧
    (∃ t, exec (.encode 1 2 16 32) (bench .refuse [0xA5]) = .next t) ∧
    exec (.decode 1 1 16 32) (bench .refuse [0xA5]) = .refused .oddLength :=
  ⟨rfl, rfl, ⟨_, rfl⟩, rfl⟩

/-- The same source at another place beside other bytes. -/
theorem witness_PlacementIrrelevant :
    let s := bench .refuse [0xAA, 0x55]
    let s' := s.setMem (s.mem.writeBytes 100 [0x01, 0xAA, 0x55])
    s.mem.wf ∧ s'.mem.wf ∧ s'.cfg = s.cfg ∧ s'.mem.readBytes 101 2 = s.mem.readBytes 16 2 ∧
    s'.mem.readBytes 33 2 = s.mem.readBytes 32 2 ∧ overlaps 2 2 101 33 = false ∧
    overlaps (decodeSourceSize 2) 2 101 33 = false ∧
    (∃ t, exec (.encode 2 2 16 32) s = .next t) ∧ ∃ t, exec (.decode 2 2 16 32) s = .next t :=
  ⟨bench_wf.2.1, by decide +kernel, rfl, by decide +kernel, by decide +kernel, by decide, by decide, ⟨_, rfl⟩, _, rfl⟩

/-- Two commands on one source with destinations side by side. -/
theorem witness_IndependentCommandsCommute :
    (bench .refuse [0xAA, 0x55]).mem.wf ∧ independent (.encode 2 4 16 32) (.decode 2 1 16 36) ∧
    ∃ t u, exec (.encode 2 4 16 32) (bench .refuse [0xAA, 0x55]) = .next t ∧ exec (.decode 2 1 16 36) t = .next u := by
  refine ⟨bench_wf.2.1, ⟨fun a h => ?_, fun a h => ?_, fun a h => ?_⟩, _, _, rfl, rfl⟩ <;>
  · simp only [Region.holds, destinationRegion, sourceRegion] at h
    omega

/-- The second destination may be the first source. -/
theorem witness_CleanRoundTrip :
    tablesW.RoundTrip ∧ (bench .refuse [0xA5]).mem.wf ∧ (bench .refuse [0xA5]).cfg.tables.RoundTrip ∧
    overlaps 1 2 16 32 = false ∧ overlaps (2 * 1) 1 32 16 = false ∧ 2 * 1 ≤ 2 ∧ 1 ≤ 1 :=
  ⟨tablesW_wf.2.2, bench_wf.1, tablesW_wf.2.2, by decide⟩

theorem witness_SizeLaws :
    [0xAA, 0x55].length % 2 = 0 ∧ (overlaps 1 2 16 32 = false ∧ 2 * 1 ≤ 2) ∧
    (2 % 2 = 0 ∧ overlaps 2 1 16 32 = false ∧ 2 / 2 ≤ 1) := by
  decide

theorem witness_OneByteShort :
    (1 ≤ 1 ∧ overlaps 1 (2 * 1 - 1) 16 32 = false) ∧ (2 ≤ 2 ∧ 2 % 2 = 0 ∧ overlaps 2 (2 / 2 - 1) 16 32 = false) ∧
    (overlaps 1 2 16 32 = false ∧ ¬ 2 < 2 * 1) ∧ (overlaps 2 1 16 32 = false ∧ ¬ 1 < 2 / 2) := by
  decide

theorem witness_DocumentScenario :
    ((bench .refuse [0xA5]).mem.wf ∧ tablesW.Fixed ∧ (bench .refuse [0xA5]).mem.readBytes 16 1 = [0xA5] ∧
      overlaps 1 2 16 32 = false) ∧
    ((bench .refuse [0xAA, 0x55]).mem.wf ∧ tablesW.RoundTrip ∧
      (bench .refuse [0xAA, 0x55]).mem.readBytes 16 2 = [0xAA, 0x55] ∧ overlaps 2 1 16 32 = false) :=
  ⟨⟨bench_wf.1, tablesW_wf.1, by decide +kernel, by decide⟩, bench_wf.2.1, tablesW_wf.2.2, by decide +kernel, by decide⟩

/-- W8: one flipped bit in each of the two symbols of `0xA5`. -/
theorem witness_ConditionalCorrection :
    tablesW.Nearest ∧ 2 * 1 + 1 ≤ tablesW.minDist ∧ 3 ≤ tablesW.minDist ∧
    hammingDistance (tablesW.symbol 0xA) 0xAB ≤ 1 ∧ (bench .refuse [0xAB, 0x54]).mem.wf ∧
    2 = 2 * [(0xA5 : Byte)].length ∧ overlaps 2 1 16 32 = false ∧ [(0xA5 : Byte)].length ≤ 1 ∧
    List.Forall₂ (fun x y => hammingDistance x y ≤ 1) (enc tablesW [0xA5])
      ((bench .refuse [0xAB, 0x54]).mem.readBytes 16 2) := by
  have h := tablesW_minDist
  exact ⟨tablesW_nearest, by omega, by omega, by decide +kernel, by decide +kernel, by decide, by decide, by decide,
    .cons (by decide +kernel) (.cons (by decide +kernel) .nil)⟩

theorem witness_ChangesStayLocal :
    (bench .refuse [0xAA, 0x55]).mem.wf ∧ (1 < 2 ∧ 1 < decodeSourceSize 2) ∧
    (∃ t, exec (.encode 2 4 16 32) (bench .refuse [0xAA, 0x55]) = .next t) ∧
    (∃ t, exec (.encode 2 4 16 32) ((bench .refuse [0xAA, 0x55]).setMem
      ((bench .refuse [0xAA, 0x55]).mem.write (16 + 1) 0xFF)) = .next t) ∧
    (∃ t, exec (.decode 2 1 16 32) (bench .refuse [0xAA, 0x55]) = .next t) ∧
    (∃ t, exec (.decode 2 1 16 32) ((bench .refuse [0xAA, 0x55]).setMem
      ((bench .refuse [0xAA, 0x55]).mem.write (16 + 1) 0xFF)) = .next t) ∧
    (1 < 4 ∧ 1 ≠ 2 * 1 ∧ 1 ≠ 2 * 1 + 1) ∧ (0 / 2 < 1 ∧ 0 % 2 = 0) ∧ (1 / 2 < 1 ∧ 1 % 2 = 1) ∧
    (bench .ignoreTrailing [0xAA, 0x55, 0xAA]).mem.wf ∧ (decodeSourceSize 3 ≤ 2 ∧ 2 < 3) ∧
    (∃ t, exec (.decode 3 1 16 32) (bench .ignoreTrailing [0xAA, 0x55, 0xAA]) = .next t) ∧
    ∃ t, exec (.decode 3 1 16 32) ((bench .ignoreTrailing [0xAA, 0x55, 0xAA]).setMem
      ((bench .ignoreTrailing [0xAA, 0x55, 0xAA]).mem.write (16 + 2) 0xFF)) = .next t :=
  ⟨bench_wf.2.1, by decide, ⟨_, rfl⟩, ⟨_, rfl⟩, ⟨_, rfl⟩, ⟨_, rfl⟩, by decide, by decide, by decide, bench_wf.2.2,
    by decide, ⟨_, rfl⟩, _, rfl⟩

theorem witness_EncodingInjective :
    tablesW.Injective ∧ enc tablesW [0xA5] = enc tablesW [0xA5] ∧ tablesW.RoundTrip ∧ [0xA9, 0x55].length % 2 = 0 ∧
    1 < [0xA9, 0x55].length :=
  ⟨tablesW_wf.2.1, rfl, tablesW_wf.2.2, by decide⟩

end Sys2Proof.Tests
end

section
/-! Runs of the machine: the equations of `run`, what a run does with the host's inputs and with the results still due,
and the two statements about the step and the run (spec/00_scope.md R9, R13; spec/70_reset_and_hazards.md R160, R167). -/

namespace Sys2Proof.Machine

/-! ### The equations of `run` -/

theorem run_succ_of_next {s u : State} (h : step s = .next u) (k : Nat) : run (k + 1) s = run k u := by
  simp [run, h]

theorem run_succ_of_refused {s : State} {r : Refusal} (h : step s = .refused r) (k : Nat) :
    run (k + 1) s = .refused r := by
  simp [run, h]

theorem run_succ_eq_next_iff {k : Nat} {s t : State} :
    run (k + 1) s = .next t ↔ ∃ u, step s = .next u ∧ run k u = .next t := by
  cases h : step s <;> simp [run, h]

/-- A run that answered a next state is continued from that state. -/
theorem run_add_of_next {k : Nat} {s u : State} (h : run k s = .next u) (j : Nat) : run (k + j) s = run j u := by
  induction k generalizing s with
  | zero => cases h; rw [Nat.zero_add]
  | succ k ih =>
    obtain ⟨v, hstep, hrun⟩ := run_succ_eq_next_iff.mp h
    rw [Nat.add_right_comm, run_succ_of_next hstep, ih hrun]

/-- What every step keeps, every run keeps. -/
theorem run_keeps {P : State → Prop} (hstep : ∀ {s t : State}, step s = .next t → P s → P t) {k : Nat} {s t : State}
    (h : run k s = .next t) (hs : P s) : P t := by
  induction k generalizing s with
  | zero => cases h; exact hs
  | succ k ih =>
    obtain ⟨u, hu, hrun⟩ := run_succ_eq_next_iff.mp h
    exact ih hrun (hstep hu hs)

/-- With nothing presented the block idles for any number of steps (R160). -/
theorem run_of_nil {s : State} (h : s.inputs = []) (j : Nat) : run j s = .next s := by
  induction j with
  | zero => rfl
  | succ j ih => rw [run_succ_of_next (step_of_nil h), ih]

/-! ### The host's inputs and the results due -/

/-- What the host does is to present a command. -/
def HostInput.isCommand : HostInput → Bool
  | .command _ => true
  | .store _ _ => false

@[simp] theorem HostInput.isCommand_command (p : Ports) : (HostInput.command p).isCommand = true := rfl
@[simp] theorem HostInput.isCommand_store (addr : Nat) (bytes : List Byte) :
    (HostInput.store addr bytes).isCommand = false := rfl

/-- How many results there are once every command presented has returned one: those returned and those due. -/
def State.resultTotal (s : State) : Nat :=
  s.results.length + s.inputs.countP HostInput.isCommand

/-- A command that completes leaves the inputs alone and returns one result (R26). -/
theorem exec_next_inputs_results {i : Instr} {s t : State} (h : exec i s = .next t) :
    t.inputs = s.inputs ∧ t.results.length = s.results.length + 1 := by
  obtain ⟨-, rfl⟩ := exec_next_iff.mp h
  simp

/-- A step takes the first of the inputs (R51, R167). -/
theorem step_next_inputs {s t : State} (h : step s = .next t) : t.inputs = s.inputs.tail := by
  obtain ⟨hin, rfl⟩ | ⟨addr, bytes, rest, hin, rfl⟩ | ⟨p, rest, i, hin, -, hexec⟩ := step_next_cases h
  · simp [hin]
  · simp [hin]
  · simp [hin, (exec_next_inputs_results hexec).1]

/-- A command that leaves the inputs is one result more, so a step does not change the sum of the two. -/
theorem step_next_resultTotal {s t : State} (h : step s = .next t) : t.resultTotal = s.resultTotal := by
  obtain ⟨-, rfl⟩ | ⟨addr, bytes, rest, hin, rfl⟩ | ⟨p, rest, i, hin, -, hexec⟩ := step_next_cases h
  · rfl
  · simp [State.resultTotal, hin]
  · obtain ⟨hinputs, hresults⟩ := exec_next_inputs_results hexec
    simp only [State.setInputs_inputs, State.setInputs_results] at hinputs hresults
    simp only [State.resultTotal, hin, hinputs, hresults, List.countP_cons, HostInput.isCommand_command, if_true]
    omega

/-- `k` steps take the first `k` inputs. -/
theorem run_next_inputs {k : Nat} {s t : State} (h : run k s = .next t) : t.inputs = s.inputs.drop k := by
  induction k generalizing s with
  | zero => cases h; rfl
  | succ k ih =>
    obtain ⟨u, hstep, hrun⟩ := run_succ_eq_next_iff.mp h
    rw [ih hrun, step_next_inputs hstep, List.drop_tail]

theorem run_next_resultTotal {k : Nat} {s t : State} (h : run k s = .next t) : t.resultTotal = s.resultTotal :=
  run_keeps (P := fun u => u.resultTotal = s.resultTotal) (fun hu => (step_next_resultTotal hu).trans) h rfl

/-- Settles O12: `k` steps take `k` inputs and keep the number of results returned and due; a run is continued from
where it stands, which is an idle state when the inputs are used up and a refused step otherwise. -/
theorem runEndsWithInputs : Obligations.RunEndsWithInputs := by
  refine ⟨fun s t h => ?_, fun k j s u r hrun hstep => ?_⟩
  · have hin : t.inputs = [] := by rw [run_next_inputs h, List.drop_length]
    have htotal : t.results.length = s.resultTotal := by
      rw [← run_next_resultTotal h, State.resultTotal, hin, List.countP_nil, Nat.add_zero]
    exact ⟨hin, htotal, fun j => by rw [run_add_of_next h, run_of_nil hin]⟩
  · rw [Nat.add_assoc, run_add_of_next hrun, Nat.add_comm 1 j, run_succ_of_refused hstep]

/-! ### The command a step runs -/

theorem decodeTableWord_eq_some_iff {nbits w : Nat} {i : Instr} :
    decodeTableWord nbits w = some i ↔ decodePorts (Ports.ofTableWord nbits w) = .ok i := by
  unfold decodeTableWord
  cases decodePorts (Ports.ofTableWord nbits w) <;> simp

/-- Taking away the word placed first leaves the state it was placed in. -/
@[simp] theorem State.withFetchWord_setInputs (s : State) (nbits w : Nat) :
    (s.withFetchWord nbits w).setInputs s.inputs = s := rfl

/-- Settles O5: the command is accepted, in the second clause because a table word's operands fit every port. -/
theorem stepRunsDecodedCommand : Obligations.StepRunsDecodedCommand := by
  refine ⟨fun s p rest i hin hdec hwf => step_of_accepted hin (accept_ok_iff.mpr ⟨hdec, hwf⟩),
    fun s nbits w i hword => ?_⟩
  have hacc : accept (s.withFetchWord nbits w).cfg.lenBits (Ports.ofTableWord nbits w) = .ok i :=
    accept_ok_iff.mpr ⟨decodeTableWord_eq_some_iff.mp hword, wellFormed_of_decodeTableWord hword _⟩
  rw [step_of_accepted rfl hacc, State.withFetchWord_setInputs]

end Sys2Proof.Machine
end

section
/-! The interface and the state: the decoder and the encoder, the reset state, and what a command, a step and a run keep
(spec/10_state.md R20 to R30; spec/30_encoding.md R60 to R64). -/

namespace Sys2Proof

/-! ### Decoding the ports -/

/-- The ports carry a command, or their operation code is reserved (R61, R64). -/
theorem Ports.carries_or_reserved (p : Ports) : (∃ i, p.carries i) ∨ p.op = 6 ∨ p.op = 7 := by
  rcases opCode_cases p.op with h | h | h | h | h | h | h
  · exact .inl ⟨.encNibble p.n, h, rfl⟩
  · exact .inl ⟨.decSymbol p.b, h, rfl⟩
  · exact .inl ⟨.encSize p.len, h, rfl⟩
  · exact .inl ⟨.decSize p.len, h, rfl⟩
  · exact .inl ⟨.encode p.len p.cap p.src p.dst, h, rfl, rfl, rfl, rfl⟩
  · exact .inl ⟨.decode p.len p.cap p.src p.dst, h, rfl, rfl, rfl, rfl⟩
  · exact .inr h

theorem decodePorts_of_carries {p : Ports} {i : Instr} (h : p.carries i) : decodePorts p = .ok i := by
  obtain ⟨hop, hargs⟩ := h
  cases i <;> simp_all [decodePorts, Instr.opCode]

theorem decodePorts_of_reserved {p : Ports} (h : p.op = 6 ∨ p.op = 7) :
    decodePorts p = .error (.reservedOp p.op) := by
  rcases h with h | h <;> simp [decodePorts, h]

theorem decodePorts_eq_ok_iff {p : Ports} {i : Instr} : decodePorts p = .ok i ↔ p.carries i := by
  refine ⟨fun h => ?_, decodePorts_of_carries⟩
  rcases p.carries_or_reserved with ⟨j, hj⟩ | hres
  · rw [decodePorts_of_carries hj] at h
    cases h
    exact hj
  · rw [decodePorts_of_reserved hres] at h
    cases h

theorem exists_decodePorts_eq_error_iff {p : Ports} : (∃ e, decodePorts p = .error e) ↔ p.op = 6 ∨ p.op = 7 := by
  refine ⟨fun ⟨e, h⟩ => ?_, fun h => ⟨_, decodePorts_of_reserved h⟩⟩
  rcases p.carries_or_reserved with ⟨j, hj⟩ | hres
  · rw [decodePorts_of_carries hj] at h
    cases h
  · exact hres

/-- The encoder puts the operation code and every operand where the command has them (R61, R62). -/
theorem encodePorts_carries (i : Instr) : (encodePorts i).carries i := by
  cases i <;> simp [Ports.carries, encodePorts, Ports.idle]

/-- Settles O2: the ports carry a command unless their code is reserved, and the encoder's ports carry its own. -/
theorem decodeEncodeAgree : Obligations.DecodeEncodeAgree :=
  ⟨fun _ _ => decodePorts_eq_ok_iff, fun i => decodePorts_of_carries (encodePorts_carries i),
    fun _ => exists_decodePorts_eq_error_iff⟩

end Sys2Proof

namespace Sys2Proof.Machine

theorem accept_of_tooWide {bits : Nat} {p : Ports} {i : Instr} (h : decodePorts p = .ok i)
    (hwide : i.wellFormed bits = false) : accept bits p = .error .operandTooWide := by
  simp [accept, h, hwide]

/-- Settles O6: a command that decodes and does not fit is not accepted. -/
theorem stepRefusesWideOperands : Obligations.StepRefusesWideOperands :=
  fun _ _ _ _ hin hdec hwide => step_of_rejected hin (accept_of_tooWide hdec hwide)

/-! ### Reset -/

/-- The machine is built with an admitted configuration: the tables the spec does not give stand in it only if
they are well-formed. -/
theorem device_wf : Config.device.WF := by
  refine ⟨?_, Nat.le_add_left 1 _⟩
  show Tables.WF (if Config.givenTables.WF then Config.givenTables else Tables.repetition)
  split
  · assumption
  · exact Tables.repetition_wf

/-- Settles O8: the configuration is the admitted one of the device, and nothing else is listed. -/
theorem resetState : Obligations.ResetState := by
  obtain ⟨htables, hbits⟩ := device_wf
  exact ⟨htables, hbits, rfl, rfl, rfl, Memory.read_nil⟩

/-- Settles O9: the configuration is admitted, the memory is empty and there is no result. -/
theorem resetMeetsInv : Obligations.ResetMeetsInv :=
  ⟨device_wf, Memory.wf_nil, List.forall_mem_nil _⟩

/-! ### What a command leaves unchanged -/

theorem exec_next_cfg {i : Instr} {s t : State} (h : exec i s = .next t) : t.cfg = s.cfg := by
  obtain ⟨-, rfl⟩ := exec_next_iff.mp h
  rfl

/-- Settles O32: a command that completes has set the memory and returned one result; the memory differs in the stored
region only, which is the first part of the destination. -/
theorem commandFrame : Obligations.CommandFrame := by
  intro i s t hm h
  obtain ⟨hi, rfl⟩ := exec_next_iff.mp h
  obtain ⟨-, hread⟩ := memoryAfter_spec (t := s.cfg.tables) hm hi
  obtain ⟨hbase, hsize⟩ := storedRegion_le i
  exact ⟨rfl, rfl, ⟨_, rfl⟩, hbase, hsize, fun a ha => (hread a).trans (if_neg ha)⟩

/-- Settles O35: refusal, result and memory are functions of the command, the configuration and the memory. -/
theorem historyInvisible : Obligations.HistoryInvisible := by
  intro i s s' hcfg hmem
  refine ⟨fun t h => ?_, fun r h => ?_⟩
  · obtain ⟨hi, rfl⟩ := exec_next_iff.mp h
    refine ⟨_, completedResult s.cfg.tables i, exec_next_iff.mpr ⟨hcfg ▸ hi, rfl⟩, ?_, rfl, ?_⟩
    · simp [hcfg, hmem]
    · simp [hcfg]
  · rw [exec_refused_iff, hcfg]
    exact exec_refused_iff.mp h

/-! ### Capacity failure shown in `RET` -/

/-- `RET = 0` is failure where there was something to write (R23). -/
theorem capacityFails_iff_returnedCount_eq_zero {need cap : Nat} :
    capacityFails need cap = true ↔ returnedCount need cap = 0 ∧ 0 < need := by
  cases h : capacityFails need cap with
  | true =>
    have hneed : 0 < need := Nat.zero_lt_of_lt (capacityFails_eq_true_iff.mp h)
    exact iff_of_true rfl ⟨returnedCount_of_fails h, hneed⟩
  | false =>
    rw [returnedCount_of_fits h]
    exact iff_of_false Bool.false_ne_true (by omega)

/-- With nothing to write the guard cannot fail. -/
theorem capacityFails_zero (cap : Nat) : capacityFails 0 cap = false :=
  capacityFails_eq_false_iff.mpr (Nat.zero_le cap)

/-- Settles O31: a buffer command that is not refused returns `returnedCount` of what it needs. -/
theorem zeroReturnAndFailure : Obligations.ZeroReturnAndFailure := by
  refine ⟨fun s len cap src dst hov => ?_, fun s len cap src dst hov hlen => ?_,
    fun cap => ⟨capacityFails_zero cap, capacityFails_zero cap, capacityFails_zero cap⟩⟩
  · exact ⟨_, _, exec_next_iff.mpr ⟨refusalOf_encode_eq_none_iff.mpr hov, rfl⟩, rfl,
      capacityFails_iff_returnedCount_eq_zero, returnedCount_of_fits⟩
  · have hi := refusalOf_decode_eq_none_iff.mpr ⟨overlaps_mono hov (decodeSourceSize_le len), hlen⟩
    exact ⟨_, _, exec_next_iff.mpr ⟨hi, rfl⟩, rfl, capacityFails_iff_returnedCount_eq_zero, returnedCount_of_fits⟩

/-! ### What every step keeps -/

theorem step_next_cfg {s t : State} (h : step s = .next t) : t.cfg = s.cfg := by
  obtain ⟨-, rfl⟩ | ⟨addr, bytes, rest, -, rfl⟩ | ⟨p, rest, i, -, -, hexec⟩ := step_next_cases h
  · rfl
  · rfl
  · exact (exec_next_cfg hexec).trans (State.setInputs_cfg s rest)

/-- Settles O11: no step changes the configuration. -/
theorem runsKeepConfiguration : Obligations.RunsKeepConfiguration :=
  fun _ s _ h => run_keeps (P := fun u => u.cfg = s.cfg) (fun hu => (step_next_cfg hu).trans) h rfl

/-- A size of at most twice a length that fits its port fits `SIZE_OUT`, which has one bit more (R21, R27). -/
theorem Result.sizeOut_fits {bits len size : Nat} (hlen : fitsPort bits len = true) (hsize : size ≤ 2 * len) :
    (Result.sizeOut size).fits bits = true := by
  have hlt : len < 2 ^ bits := fitsPort_iff.mp hlen
  refine decide_eq_true ?_
  rw [pow_succ]
  omega

/-- A count is at most the capacity, so it fits `RET` where the capacity fits `CAP` (R21, R27). -/
theorem Result.ret_returnedCount_fits {bits cap : Nat} (need : Nat) (hcap : fitsPort bits cap = true) :
    (Result.ret (returnedCount need cap)).fits bits = true :=
  decide_eq_true ((returnedCount_le need cap).trans_lt (fitsPort_iff.mp hcap))

theorem completedResult_fits {bits : Nat} {i : Instr} (h : i.wellFormed bits = true) (t : Tables) :
    (completedResult t i).fits bits = true := by
  cases i with
  | encNibble n => rfl
  | decSymbol b => rfl
  | encSize len => exact Result.sizeOut_fits h le_rfl
  | decSize len => exact Result.sizeOut_fits h (by unfold decodedSize; omega)
  | encode len cap src dst => exact Result.ret_returnedCount_fits _ (Bool.and_eq_true_iff.mp h).2
  | decode len cap src dst => exact Result.ret_returnedCount_fits _ (Bool.and_eq_true_iff.mp h).2

/-- A command whose operands fit their ports keeps the invariant. -/
theorem exec_keeps_inv {i : Instr} {s t : State} (hs : s.Inv) (hi : i.wellFormed s.cfg.lenBits = true)
    (h : exec i s = .next t) : t.Inv := by
  obtain ⟨hcfg, hmem, hresults⟩ := hs
  obtain ⟨-, rfl⟩ := exec_next_iff.mp h
  refine ⟨hcfg, wf_memoryAfter i _ hmem, fun r hr => ?_⟩
  rcases List.mem_append.mp hr with hold | hnew
  · exact hresults r hold
  · rw [List.mem_singleton.mp hnew]
    exact completedResult_fits hi _

/-- Settles O10: a store keeps the canonical form, and a command runs only if its operands fit their ports. -/
theorem stepKeepsInv : Obligations.StepKeepsInv := by
  intro s t hs h
  obtain ⟨-, rfl⟩ | ⟨addr, bytes, rest, -, rfl⟩ | ⟨p, rest, i, -, hacc, hexec⟩ := step_next_cases h
  · exact hs
  · obtain ⟨hcfg, hmem, hresults⟩ := hs
    exact ⟨hcfg, Memory.wf_writeBytes hmem addr bytes, hresults⟩
  · obtain ⟨-, hfits⟩ := accept_ok_iff.mp hacc
    exact exec_keeps_inv (s := s.setInputs rest) hs hfits hexec

end Sys2Proof.Machine
end

section
/-! The buffers in memory: overlap, the accesses of a command, and what its result and its stored bytes depend on
(spec/20_memory.md R40 to R56). -/

namespace Sys2Proof.Machine

/-! ### Regions a command does not write to -/

/-- Two regions that do not overlap have no address in common (R55, R56). -/
theorem disjoint_of_overlaps_eq_false {len cap src dst : Nat} (h : overlaps len cap src dst = false) :
    (Region.mk dst cap).disjoint ⟨src, len⟩ :=
  fun a ⟨⟨hdst, hdst'⟩, hsrc, hsrc'⟩ => overlaps_eq_false_iff.mp h a hsrc hsrc' hdst hdst'

/-- A byte is stored within the destination (R44, R48). -/
theorem destinationRegion_holds_of_stored {i : Instr} {a : Nat} (h : (storedRegion i).holds a) :
    (destinationRegion i).holds a := by
  obtain ⟨hbase, hsize⟩ := storedRegion_le i
  simp only [Region.holds] at h ⊢
  omega

/-- A region apart from the destination reads the same after the command. -/
theorem readBytes_memoryAfter_of_disjoint {i : Instr} {p : OddLenPolicy} {t : Tables} {m : Memory} (hm : m.wf)
    (hi : refusalOf p i = none) {base n : Nat} (hd : (destinationRegion i).disjoint ⟨base, n⟩) :
    (memoryAfter i t m).readBytes base n = m.readBytes base n := by
  obtain ⟨-, hread⟩ := memoryAfter_spec (t := t) hm hi
  refine Memory.readBytes_eq_iff.mpr fun k hk => ?_
  have hbase : (Region.mk base n).holds (base + k) := ⟨Nat.le_add_right base k, Nat.add_lt_add_left hk base⟩
  have hout : ¬(storedRegion i).holds (base + k) := fun h => hd _ ⟨destinationRegion_holds_of_stored h, hbase⟩
  rw [hread, if_neg hout]

/-! ### Overlap -/

theorem refusalOf_encode_of_overlaps {p : OddLenPolicy} {len cap src dst : Nat}
    (h : overlaps len cap src dst = true) : refusalOf p (.encode len cap src dst) = some .overlap := by
  simp [refusalOf, h]

theorem refusalOf_decode_of_overlaps {p : OddLenPolicy} {len cap src dst : Nat}
    (hlen : len % 2 = 0 ∨ p = .ignoreTrailing) (h : overlaps (decodeSourceSize len) cap src dst = true) :
    refusalOf p (.decode len cap src dst) = some .overlap := by
  simp [refusalOf, oddRefused_eq_false_iff.mpr hlen, h]

/-- Settles O30: a shared address makes the regions overlap, for an odd `DECODE` if it lies in the first `len - 1`
source bytes; a command that completes has its source apart from its destination. -/
theorem overlapRefused : Obligations.OverlapRefused := by
  refine ⟨fun s len cap src dst a hsrc hsrc' hdst hdst' => ⟨?_, fun heven => ?_, fun hodd hpolicy hne => ?_⟩,
    fun s t len cap src dst hm => ⟨fun h => ?_, fun h => ?_⟩⟩
  · have hov : overlaps len cap src dst = true := overlaps_eq_true_iff.mpr ⟨a, ⟨hsrc, hsrc'⟩, hdst, hdst'⟩
    exact exec_refused_iff.mpr (refusalOf_encode_of_overlaps hov)
  · have hov : overlaps (decodeSourceSize len) cap src dst = true := by
      rw [decodeSourceSize_of_even heven]
      exact overlaps_eq_true_iff.mpr ⟨a, ⟨hsrc, hsrc'⟩, hdst, hdst'⟩
    exact exec_refused_iff.mpr (refusalOf_decode_of_overlaps (.inl heven) hov)
  · have hov : overlaps (decodeSourceSize len) cap src dst = true := by
      rw [decodeSourceSize_of_odd hodd]
      exact overlaps_eq_true_iff.mpr ⟨a, ⟨hsrc, by omega⟩, hdst, hdst'⟩
    exact exec_refused_iff.mpr (refusalOf_decode_of_overlaps (.inr hpolicy) hov)
  · obtain ⟨hi, rfl⟩ := exec_next_iff.mp h
    have hov := refusalOf_encode_eq_none_iff.mp hi
    exact readBytes_memoryAfter_of_disjoint hm hi (disjoint_of_overlaps_eq_false hov)
  · obtain ⟨hi, rfl⟩ := exec_next_iff.mp h
    obtain ⟨hov, -⟩ := refusalOf_decode_eq_none_iff.mp hi
    exact ⟨readBytes_memoryAfter_of_disjoint hm hi (disjoint_of_overlaps_eq_false hov),
      fun hwhole => readBytes_memoryAfter_of_disjoint hm hi (disjoint_of_overlaps_eq_false hwhole)⟩

/-! ### The accesses of a command -/

/-- The accesses of `ENCODE` where it is not refused. -/
theorem accesses_encode {s : State} {len cap src dst : Nat} (hov : overlaps len cap src dst = false) :
    accesses (.encode len cap src dst) s = if capacityFails (encodedSize len) cap then []
      else (List.range len).flatMap (encodeIterationAccesses s.cfg.tables src s.mem) := by
  simp [accesses, hov]

/-- The accesses of `DECODE` where it is not refused. -/
theorem accesses_decode {s : State} {len cap src dst : Nat}
    (hlen : len % 2 = 0 ∨ s.cfg.oddLenPolicy = .ignoreTrailing)
    (hov : overlaps (decodeSourceSize len) cap src dst = false) :
    accesses (.decode len cap src dst) s = if capacityFails (decodedSize len) cap then []
      else (List.range (decodedSize len)).flatMap (decodeIterationAccesses s.cfg.tables src s.mem) := by
  simp [accesses, oddRefused_eq_false_iff.mpr hlen, hov]

/-- A refused command makes no access (R48). -/
theorem accesses_of_refused {i : Instr} {s : State} {r : Refusal} (h : refusalOf s.cfg.oddLenPolicy i = some r) :
    accesses i s = [] := by
  cases i with
  | encode len cap src dst =>
    cases hov : overlaps len cap src dst with
    | true => simp [accesses, hov]
    | false => simp [refusalOf, hov] at h
  | decode len cap src dst =>
    cases hodd : oddRefused s.cfg.oddLenPolicy len with
    | true => simp [accesses, hodd]
    | false =>
      cases hov : overlaps (decodeSourceSize len) cap src dst with
      | true => simp [accesses, hov]
      | false => simp [refusalOf, hodd, hov] at h
  | _ => cases h

/-- The offsets `0 .. 2*n-1` are those of `n` pairs, one after the other. -/
theorem flatMap_pair_range (n : Nat) :
    (List.range n).flatMap (fun i => [2 * i, 2 * i + 1]) = List.range (2 * n) := by
  induction n with
  | zero => rfl
  | succ n ih => simp [List.range_succ, ih, Nat.mul_succ]

section
variable (t : Tables) (src : Nat) (m : Memory) (n : Nat)

theorem sourceReads_encode : ((List.range n).flatMap (encodeIterationAccesses t src m)).filterMap
    Access.sourceRead? = List.range n := by
  rw [List.filterMap_flatMap]
  exact List.flatMap_singleton' (List.range n)

theorem destinationWrites_encode : ((List.range n).flatMap (encodeIterationAccesses t src m)).filterMap
    Access.destinationWrite? = List.range (2 * n) := by
  rw [List.filterMap_flatMap]
  exact flatMap_pair_range n

theorem lookups_encode : ((List.range n).flatMap (encodeIterationAccesses t src m)).countP
    Access.isLookup = 2 * n := by
  rw [List.countP_flatMap]
  show ((List.range n).map fun _ => 2).sum = 2 * n
  simp [Nat.mul_comm]

theorem sourceReads_decode : ((List.range n).flatMap (decodeIterationAccesses t src m)).filterMap
    Access.sourceRead? = List.range (2 * n) := by
  rw [List.filterMap_flatMap]
  exact flatMap_pair_range n

theorem destinationWrites_decode : ((List.range n).flatMap (decodeIterationAccesses t src m)).filterMap
    Access.destinationWrite? = List.range n := by
  rw [List.filterMap_flatMap]
  exact List.flatMap_singleton' (List.range n)

theorem lookups_decode : ((List.range n).flatMap (decodeIterationAccesses t src m)).countP
    Access.isLookup = 2 * n := by
  rw [List.countP_flatMap]
  show ((List.range n).map fun _ => 2).sum = 2 * n
  simp [Nat.mul_comm]

end

/-- A command that does not succeed by the outcome table makes no access: it is refused, or it fails on capacity
(R48, R157). -/
theorem accesses_of_not_succeeds {i : Instr} {s : State} (h : tableOutcome s.cfg.oddLenPolicy i ≠ .succeeds) :
    accesses i s = [] := by
  cases hi : refusalOf s.cfg.oddLenPolicy i with
  | some r => exact accesses_of_refused hi
  | none =>
    cases i with
    | encode len cap src dst =>
      have hov := refusalOf_encode_eq_none_iff.mp hi
      have hcap : cap < encodedSize len := by
        by_contra hno
        exact h (by simp [tableOutcome, hov, show ¬cap < 2 * len from hno])
      rw [accesses_encode hov, if_pos (capacityFails_eq_true_iff.mpr hcap)]
    | decode len cap src dst =>
      obtain ⟨hov, hlen⟩ := refusalOf_decode_eq_none_iff.mp hi
      have hodd := mt oddRefused_eq_true_iff.mpr (Bool.eq_false_iff.mp (oddRefused_eq_false_iff.mpr hlen))
      have hcap : cap < decodedSize len := by
        by_contra hno
        exact h (by simp [tableOutcome, if_neg hodd, hov, show ¬cap < len / 2 from hno])
      rw [accesses_decode hlen hov, if_pos (capacityFails_eq_true_iff.mpr hcap)]
    | _ => exact absurd rfl h

/-- Settles O33: each iteration reads, looks up and writes the offsets that follow those of the iteration before. -/
theorem accessesOncePerOffset : Obligations.AccessesOncePerOffset := by
  refine ⟨fun s len cap src dst hov hcap => ?_, fun s len cap src dst hlen hov hcap => ?_,
    fun i s => accesses_of_not_succeeds⟩
  · have hfits : capacityFails (encodedSize len) cap = false := capacityFails_eq_false_iff.mpr hcap
    rw [accesses_encode hov, if_neg (Bool.eq_false_iff.mp hfits)]
    exact ⟨sourceReads_encode .., destinationWrites_encode .., lookups_encode ..⟩
  · have hfits : capacityFails (decodedSize len) cap = false := capacityFails_eq_false_iff.mpr hcap
    rw [accesses_decode hlen hov, if_neg (Bool.eq_false_iff.mp hfits)]
    exact ⟨sourceReads_decode .., destinationWrites_decode .., lookups_decode ..⟩

/-! ### The accesses, performed one after the other -/

theorem encodeLoop_succ (t : Tables) (n src dst : Nat) (m : Memory) :
    encodeLoop t (n + 1) src dst m = encodeIteration t src dst (encodeLoop t n src dst m) n := by
  simp [encodeLoop, List.range_succ]

theorem decodeLoop_succ (t : Tables) (n src dst : Nat) (m : Memory) :
    decodeLoop t (n + 1) src dst m = decodeIteration t src dst (decodeLoop t n src dst m) n := by
  simp [decodeLoop, List.range_succ]

/-- The accesses are computed from the memory before the command, and an iteration reads the memory the iterations
before it left: they agree as the source byte is apart from the bytes written. -/
theorem foldl_perform_encode {t : Tables} {n src dst : Nat} {m : Memory} (hm : m.wf)
    (hd : ∀ k < n, ¬(dst ≤ src + k ∧ src + k < dst + 2 * n)) :
    ((List.range n).flatMap (encodeIterationAccesses t src m)).foldl (Access.perform dst) m =
      encodeLoop t n src dst m := by
  induction n with
  | zero => rfl
  | succ n ih =>
    have hd' : ∀ k < n, ¬(dst ≤ src + k ∧ src + k < dst + 2 * n) := fun k hk => by
      have := hd k (by omega)
      omega
    have hsrc : (encodeLoop t n src dst m).read (src + n) = m.read (src + n) := by
      rw [(encodeLoop_spec hm hd').2, if_neg (by have := hd n (by omega); omega)]
    rw [encodeLoop_succ, encodeIteration, hsrc, List.range_succ, List.flatMap_append, List.foldl_append, ih hd',
      List.flatMap_singleton]
    rfl

theorem foldl_perform_decode {t : Tables} {n src dst : Nat} {m : Memory} (hm : m.wf)
    (hd : ∀ k < 2 * n, ¬(dst ≤ src + k ∧ src + k < dst + n)) :
    ((List.range n).flatMap (decodeIterationAccesses t src m)).foldl (Access.perform dst) m =
      decodeLoop t n src dst m := by
  induction n with
  | zero => rfl
  | succ n ih =>
    have hd' : ∀ k < 2 * n, ¬(dst ≤ src + k ∧ src + k < dst + n) := fun k hk => by
      have := hd k (by omega)
      omega
    have hsrc : ∀ k < 2 * (n + 1), (decodeLoop t n src dst m).read (src + k) = m.read (src + k) := fun k hk => by
      rw [(decodeLoop_spec hm hd').2, if_neg (by have := hd k hk; omega)]
    rw [decodeLoop_succ, decodeIteration, hsrc (2 * n) (by omega), hsrc (2 * n + 1) (by omega),
      List.range_succ, List.flatMap_append, List.foldl_append, ih hd', List.flatMap_singleton]
    rfl

/-- Settles O34: a command that fails makes no access and changes no memory; one that succeeds makes the accesses of
its loop. -/
theorem accessesExplainMemory : Obligations.AccessesExplainMemory := by
  intro i s t hm h
  obtain ⟨hi, rfl⟩ := exec_next_iff.mp h
  show memoryAfter i s.cfg.tables s.mem = _
  cases i with
  | encode len cap src dst =>
    have hov := refusalOf_encode_eq_none_iff.mp hi
    rw [accesses_encode hov, memoryAfter]
    split
    · rfl
    next hfits =>
      have hcap : encodedSize len ≤ cap := capacityFails_eq_false_iff.mp (Bool.eq_false_iff.mpr hfits)
      exact (foldl_perform_encode hm fun k hk => source_not_in_destination hov hk hcap).symm
  | decode len cap src dst =>
    obtain ⟨hov, hlen⟩ := refusalOf_decode_eq_none_iff.mp hi
    rw [accesses_decode hlen hov, memoryAfter]
    split
    · rfl
    next hfits =>
      have hcap : decodedSize len ≤ cap := capacityFails_eq_false_iff.mp (Bool.eq_false_iff.mpr hfits)
      exact (foldl_perform_decode hm fun k hk => source_not_in_destination hov hk hcap).symm
  | _ => rfl

/-! ### What the stored bytes depend on -/

theorem returnedCount_le_need (need cap : Nat) : returnedCount need cap ≤ need := by
  unfold returnedCount
  split
  · exact Nat.zero_le need
  · exact le_rfl

/-- An encoded byte is a function of the source's contents. -/
theorem encodedByte_congr {t : Tables} {m m' : Memory} {src src' len k : Nat}
    (h : m'.readBytes src' len = m.readBytes src len) (hk : k < 2 * len) :
    encodedByte t m' src' k = encodedByte t m src k := by
  rw [encodedByte, Memory.readBytes_eq_iff.mp h (k / 2) (by omega), encodedByte]

/-- A decoded byte is a function of the source's contents. -/
theorem decodedByte_congr {t : Tables} {m m' : Memory} {src src' len k : Nat}
    (h : m'.readBytes src' len = m.readBytes src len) (hk : k < len / 2) :
    decodedByte t m' src' k = decodedByte t m src k := by
  have hread := Memory.readBytes_eq_iff.mp h
  rw [decodedByte, hread (2 * k) (by omega), hread (2 * k + 1) (by omega), decodedByte]

/-- What a command stores is a function of its source's contents (R49). -/
theorem storedByte_congr {i : Instr} {t : Tables} {m m' : Memory} {k : Nat}
    (h : m'.readBytes (sourceRegion i).base (sourceRegion i).size =
      m.readBytes (sourceRegion i).base (sourceRegion i).size) (hk : k < (storedRegion i).size) :
    storedByte i t m' k = storedByte i t m k := by
  cases i with
  | encode len cap => exact encodedByte_congr h (hk.trans_le (returnedCount_le_need (encodedSize len) cap))
  | decode len cap => exact decodedByte_congr h (hk.trans_le (returnedCount_le_need (decodedSize len) cap))
  | _ => rfl

/-- Commands that return the same and store the same bytes at the same offsets leave the same destination, if it held
the same before. -/
theorem exec_next_of_same_effect {i i' : Instr} {s s' t : State} {cap : Nat} (hm : s.mem.wf) (hm' : s'.mem.wf)
    (hcfg : s'.cfg = s.cfg) (hi' : refusalOf s.cfg.oddLenPolicy i' = none)
    (hresult : completedResult s.cfg.tables i' = completedResult s.cfg.tables i)
    (hsize : (storedRegion i').size = (storedRegion i).size)
    (hstored : ∀ k < (storedRegion i).size,
      storedByte i' s.cfg.tables s'.mem k = storedByte i s.cfg.tables s.mem k)
    (hprior : s'.mem.readBytes (storedRegion i').base cap = s.mem.readBytes (storedRegion i).base cap)
    (h : exec i s = .next t) :
    ∃ t' r, exec i' s' = .next t' ∧ t.results = s.results ++ [r] ∧ t'.results = s'.results ++ [r] ∧
      t'.mem.readBytes (storedRegion i').base cap = t.mem.readBytes (storedRegion i).base cap := by
  obtain ⟨hi, rfl⟩ := exec_next_iff.mp h
  obtain ⟨-, hread⟩ := memoryAfter_spec (t := s.cfg.tables) hm hi
  obtain ⟨-, hread'⟩ := memoryAfter_spec (t := s.cfg.tables) hm' hi'
  refine ⟨_, _, exec_next_iff.mpr ⟨hcfg ▸ hi', rfl⟩, rfl, by rw [hcfg, hresult]; rfl, ?_⟩
  rw [hcfg]
  refine Memory.readBytes_eq_iff.mpr fun k hk => ?_
  show (memoryAfter i' s.cfg.tables s'.mem).read _ = (memoryAfter i s.cfg.tables s.mem).read _
  rw [hread, hread']
  simp only [Region.holds, Nat.le_add_right, Nat.add_lt_add_iff_left, true_and, Nat.add_sub_cancel_left, hsize]
  split
  next hin => exact hstored k hin
  next => exact Memory.readBytes_eq_iff.mp hprior k hk

/-- Settles O36: whether the command is refused for its length depends on the configuration, and what it stores on its
source's contents. -/
theorem placementIrrelevant : Obligations.PlacementIrrelevant := by
  intro s s' t len cap src dst src' dst' hm hm' hcfg hsrc hdst
  refine ⟨fun hov h => ?_, fun hov h => ?_⟩
  · have hi' := refusalOf_encode_eq_none_iff (p := s.cfg.oddLenPolicy).mpr hov
    refine exec_next_of_same_effect (i := .encode len cap src dst) hm hm' hcfg hi' rfl rfl
      (fun k hk => encodedByte_congr hsrc ?_) hdst h
    exact hk.trans_le (returnedCount_le_need (encodedSize len) cap)
  · obtain ⟨hi, -⟩ := exec_next_iff.mp h
    obtain ⟨-, hlen⟩ := refusalOf_decode_eq_none_iff.mp hi
    have hi' := refusalOf_decode_eq_none_iff.mpr ⟨hov, hlen⟩
    refine exec_next_of_same_effect (i := .decode len cap src dst) hm hm' hcfg hi' rfl rfl
      (fun k hk => decodedByte_congr hsrc ?_) hdst h
    exact hk.trans_le (returnedCount_le_need (decodedSize len) cap)

/-! ### Independent commands -/

/-- A command stores the same bytes after one that does not write into its source. -/
theorem storedByte_memoryAfter {i j : Instr} {p : OddLenPolicy} {t : Tables} {m : Memory} (hm : m.wf)
    (hj : refusalOf p j = none) (hd : (destinationRegion j).disjoint (sourceRegion i)) {k : Nat}
    (hk : k < (storedRegion i).size) : storedByte i t (memoryAfter j t m) k = storedByte i t m k :=
  storedByte_congr (readBytes_memoryAfter_of_disjoint hm hj hd) hk

/-- The memory after `j` then `i`, where `j` does not write into the source of `i`: what `i` stores, then what `j`
stores, both from the memory before the two. -/
theorem read_memoryAfter_memoryAfter {i j : Instr} {p : OddLenPolicy} {t : Tables} {m : Memory} (hm : m.wf)
    (hi : refusalOf p i = none) (hj : refusalOf p j = none)
    (hd : (destinationRegion j).disjoint (sourceRegion i)) (a : Nat) :
    (memoryAfter i t (memoryAfter j t m)).read a =
      if (storedRegion i).holds a then storedByte i t m (a - (storedRegion i).base)
      else if (storedRegion j).holds a then storedByte j t m (a - (storedRegion j).base) else m.read a := by
  obtain ⟨hwj, hreadj⟩ := memoryAfter_spec (t := t) hm hj
  obtain ⟨-, hreadi⟩ := memoryAfter_spec (t := t) hwj hi
  rw [hreadi, hreadj]
  refine ite_congr rfl (fun hin => ?_) fun _ => rfl
  obtain ⟨hlo, hhi⟩ := hin
  exact storedByte_memoryAfter hm hj hd (by omega)

/-- Two independent commands leave the same memory in either order: neither changes what the other stores, and they
store to no common address. -/
theorem memoryAfter_comm {i j : Instr} {p : OddLenPolicy} {t : Tables} {m : Memory} (hm : m.wf)
    (hi : refusalOf p i = none) (hj : refusalOf p j = none) (hij : independent i j) :
    memoryAfter i t (memoryAfter j t m) = memoryAfter j t (memoryAfter i t m) := by
  obtain ⟨hsrcj, hdst, hsrci⟩ := hij
  have hwij := wf_memoryAfter i t (wf_memoryAfter j t hm)
  have hwji := wf_memoryAfter j t (wf_memoryAfter i t hm)
  refine Memory.ext hwij hwji fun a => ?_
  rw [read_memoryAfter_memoryAfter hm hi hj hsrci, read_memoryAfter_memoryAfter hm hj hi hsrcj]
  by_cases hini : (storedRegion i).holds a
  · have hinj : ¬(storedRegion j).holds a := fun h =>
      hdst a ⟨destinationRegion_holds_of_stored hini, destinationRegion_holds_of_stored h⟩
    rw [if_pos hini, if_neg hinj, if_pos hini]
  · rw [if_neg hini, if_neg hini]

/-- Settles O37: refusal and result depend on the configuration alone, which no command changes, and the memories
commute. -/
theorem independentCommandsCommute : Obligations.IndependentCommandsCommute := by
  intro i j s t u hm hij hexeci hexecj
  obtain ⟨hi, rfl⟩ := exec_next_iff.mp hexeci
  obtain ⟨hj, rfl⟩ := exec_next_iff.mp hexecj
  exact ⟨_, _, completedResult s.cfg.tables i, completedResult s.cfg.tables j, exec_next_iff.mpr ⟨hj, rfl⟩,
    exec_next_iff.mpr ⟨hi, rfl⟩, memoryAfter_comm hm hi hj hij, by simp, by simp⟩

end Sys2Proof.Machine
end

section
/-! The encoding of commands (spec/30_encoding.md R61, R63, R64): what `OP` alone fixes, the words of the opcode table,
and the reserved codes at the step. -/

namespace Sys2Proof

/-! ### What the operation code fixes -/

/-- Ports that hold the operation code of a command carry a command of that code and mnemonic: whatever stands on the
operand ports is its operands (R63). -/
theorem Ports.exists_carries_of_op_eq {p : Ports} {i : Instr} (h : p.op = i.opCode) :
    ∃ j, p.carries j ∧ j.opCode = i.opCode ∧ j.mnemonic = i.mnemonic := by
  cases i with
  | encNibble => exact ⟨.encNibble p.n, ⟨h, rfl⟩, rfl, rfl⟩
  | decSymbol => exact ⟨.decSymbol p.b, ⟨h, rfl⟩, rfl, rfl⟩
  | encSize => exact ⟨.encSize p.len, ⟨h, rfl⟩, rfl, rfl⟩
  | decSize => exact ⟨.decSize p.len, ⟨h, rfl⟩, rfl, rfl⟩
  | encode => exact ⟨.encode p.len p.cap p.src p.dst, ⟨h, rfl, rfl, rfl, rfl⟩, rfl, rfl⟩
  | decode => exact ⟨.decode p.len p.cap p.src p.dst, ⟨h, rfl, rfl, rfl, rfl⟩, rfl, rfl⟩

theorem opCode_of_decodePorts {p : Ports} {i : Instr} (h : decodePorts p = .ok i) : p.op = i.opCode :=
  (decodePorts_eq_ok_iff.mp h).1

/-- The decoder is total: a command, or a reserved code (R63). -/
theorem exists_decodePorts_eq_ok_or_reserved (p : Ports) : (∃ i, decodePorts p = .ok i) ∨ p.op = 6 ∨ p.op = 7 :=
  p.carries_or_reserved.imp_left fun ⟨i, hi⟩ => ⟨i, decodePorts_of_carries hi⟩

/-- Settles O3: the decoder is total, and ports with the code of a command carry a command of its code and mnemonic. -/
theorem decodingLooksAtOpAlone : Obligations.DecodingLooksAtOpAlone := by
  refine ⟨fun p => ?_, fun p q i hop hi => ?_⟩
  · rcases exists_decodePorts_eq_ok_or_reserved p with ⟨i, hi⟩ | hres
    · exact .inl ⟨i, hi, (opCode_of_decodePorts hi).symm⟩
    · exact .inr ⟨decodePorts_of_reserved hres, hres⟩
  · obtain ⟨j, hj, hsame⟩ := Ports.exists_carries_of_op_eq (hop.symm.trans (opCode_of_decodePorts hi))
    exact ⟨j, decodePorts_of_carries hj, hsame⟩

/-! ### The words of the opcode table -/

theorem decodeTableWord_of_carries {nbits w : Nat} {i : Instr} (h : (Ports.ofTableWord nbits w).carries i) :
    decodeTableWord nbits w = some i := by
  simp [decodeTableWord, decodePorts_of_carries h]

theorem decodeTableWord_of_reserved {nbits w : Nat}
    (h : (Ports.ofTableWord nbits w).op = 6 ∨ (Ports.ofTableWord nbits w).op = 7) :
    decodeTableWord nbits w = none := by
  simp [decodeTableWord, decodePorts_of_reserved h]

/-- Settles O1: the words 0 to 5 are the codes of the six commands, with zero for each operand, and the other two are
reserved. -/
theorem opcodeTableWords : Obligations.OpcodeTableWords :=
  ⟨decodeTableWord_of_carries ⟨rfl, rfl⟩, decodeTableWord_of_carries ⟨rfl, rfl⟩,
    decodeTableWord_of_carries ⟨rfl, rfl⟩, decodeTableWord_of_carries ⟨rfl, rfl⟩,
    decodeTableWord_of_carries ⟨rfl, rfl, rfl, rfl, rfl⟩, decodeTableWord_of_carries ⟨rfl, rfl, rfl, rfl, rfl⟩,
    decodeTableWord_of_reserved (.inl rfl), decodeTableWord_of_reserved (.inr rfl)⟩

end Sys2Proof

/-! ### Reserved codes at the step -/

namespace Sys2Proof.Machine

theorem accept_of_reserved {bits : Nat} {p : Ports} (h : p.op = 6 ∨ p.op = 7) :
    accept bits p = .error (.reservedOp p.op) := by
  simp [accept, decodePorts_of_reserved h]

/-- Settles O4: a reserved code is not accepted, and the decoder rejects no other code. -/
theorem reservedOpRefused : Obligations.ReservedOpRefused :=
  ⟨fun _ _ _ hin hres => step_of_rejected hin (accept_of_reserved hres),
    fun p hres => (exists_decodePorts_eq_ok_or_reserved p).resolve_right hres⟩

end Sys2Proof.Machine
end

section
/-! The code table and its two commands (spec/40_code_table.md R80 to R92): what the predicates over the tables imply of
each other, the packed form of the reverse table, on which part of the configuration a command depends, and what `DECODE`
corrects (spec/43_properties.md R186). -/

namespace Sys2Proof

/-! ### The predicates over the tables -/

/-- P1 (R81) as Mathlib's injectivity. -/
theorem Tables.Injective.symbol_injective {t : Tables} (h : t.Injective) : Function.Injective t.symbol :=
  fun n m heq => by_contra fun hne => h n m hne heq

theorem Tables.nibble_of_symbol_eq {t : Tables} (h : t.RoundTrip) {n : Nibble} {b : Byte} (hb : t.symbol n = b) :
    t.nibble b = n :=
  hb ▸ h n

/-- Settles O16: each fixed entry of the forward table is undone, and `n` is the result for its own symbol. -/
theorem reverseTableOnto : Obligations.ReverseTableOnto :=
  fun t ⟨hA, h5⟩ h =>
    ⟨Tables.nibble_of_symbol_eq h hA, Tables.nibble_of_symbol_eq h h5, h, fun n => ⟨t.symbol n, h n⟩⟩

/-- Settles O17: the codeword that `DEC` names for a codeword is at distance 0 from it, since the codeword itself is. -/
theorem nearestImpliesRoundTrip : Obligations.NearestImpliesRoundTrip := by
  intro t hinj hnear n
  have hle : hammingDistance (t.symbol n) (t.symbol (t.nibble (t.symbol n))) ≤ 0 := by
    simpa using hnear (t.symbol n) n
  have hsame : t.symbol n = t.symbol (t.nibble (t.symbol n)) := hammingDistance_eq_zero.mp (Nat.le_zero.mp hle)
  exact (hinj.symbol_injective hsame).symm

/-! ### The number of codewords -/

/-- The codewords, as numbers, are the image of the 16 nibbles. -/
theorem filter_isCodeword_eq_image (t : Tables) :
    (Finset.range 256).filter (fun b => t.isCodeword (BitVec.ofNat 8 b)) =
      (Finset.range 16).image fun n => (t.symbol (BitVec.ofNat 4 n)).toNat := by
  ext b
  simp only [Finset.mem_filter, Finset.mem_range, Finset.mem_image, isCodeword_iff]
  constructor
  · rintro ⟨hb, n, hn⟩
    refine ⟨n.toNat, n.isLt, ?_⟩
    rw [BitVec.ofNat_toNat, BitVec.setWidth_eq, hn, BitVec.toNat_ofNat, Nat.mod_eq_of_lt hb]
  · rintro ⟨n, -, rfl⟩
    exact ⟨(t.symbol _).isLt, BitVec.ofNat 4 n, by simp⟩

/-- Settles O15: the codewords are the image of the 16 nibbles, under a map that P1 makes injective. -/
theorem sixteenCodewords : Obligations.SixteenCodewords := by
  intro t hinj
  have hon : Set.InjOn (fun n => (t.symbol (BitVec.ofNat 4 n)).toNat) (Finset.range 16) := fun n hn m hm heq => by
    have hbv := congrArg BitVec.toNat (hinj.symbol_injective (BitVec.eq_of_toNat_eq heq))
    have hn' : n < 16 := Finset.mem_range.mp hn
    have hm' : m < 16 := Finset.mem_range.mp hm
    simp only [BitVec.toNat_ofNat] at hbv
    omega
  calc (List.range 256).countP (fun b => t.isCodeword (BitVec.ofNat 8 b))
      = ((Finset.range 256).filter fun b => t.isCodeword (BitVec.ofNat 8 b)).card :=
        by simpa [Nat.count] using
          Nat.count_eq_card_filter_range (fun b => t.isCodeword (BitVec.ofNat 8 b) = true) 256
    _ = (Finset.range 16).card := by rw [filter_isCodeword_eq_image, Finset.card_image_of_injOn hon]
    _ = 16 := Finset.card_range 16

/-! ### The packed form -/

open Machine (highNibble lowNibble joinNibbles)

theorem PackedTable.lookup_evenHigh (pk : PackedTable) (b : Byte) :
    pk.lookup .evenHigh b = if b.getLsbD 0 then lowNibble (pk.stored b) else highNibble (pk.stored b) := rfl

theorem PackedTable.lookup_evenLow (pk : PackedTable) (b : Byte) :
    pk.lookup .evenLow b = if b.getLsbD 0 then highNibble (pk.stored b) else lowNibble (pk.stored b) := rfl

/-- The stored byte for `b` holds the results for the even and the odd byte value of its pair (R90). -/
theorem stored_pack_evenHigh (t : Tables) (b : Byte) : (t.pack .evenHigh).stored b =
    joinNibbles (t.nibble (BitVec.ofNat 8 (2 * (b.toNat / 2))))
      (t.nibble (BitVec.ofNat 8 (2 * (b.toNat / 2) + 1))) := by
  simp [PackedTable.stored, Tables.pack, joinNibbles]

theorem stored_pack_evenLow (t : Tables) (b : Byte) : (t.pack .evenLow).stored b =
    joinNibbles (t.nibble (BitVec.ofNat 8 (2 * (b.toNat / 2) + 1)))
      (t.nibble (BitVec.ofNat 8 (2 * (b.toNat / 2)))) := by
  simp [PackedTable.stored, Tables.pack, joinNibbles]

/-- `b[0]` is the parity of `b`. -/
theorem getLsbD_zero_eq_decide (b : Byte) : b.getLsbD 0 = decide (b.toNat % 2 = 1) := by
  simp [BitVec.getLsbD, Nat.testBit_zero]

/-- With `b[0] = 0`, `b` is the even byte value of its pair. -/
theorem ofNat_pair_even {b : Byte} (h : b.getLsbD 0 = false) : BitVec.ofNat 8 (2 * (b.toNat / 2)) = b := by
  have heven : ¬b.toNat % 2 = 1 := of_decide_eq_false ((getLsbD_zero_eq_decide b).symm.trans h)
  rw [show 2 * (b.toNat / 2) = b.toNat by omega, BitVec.ofNat_toNat, BitVec.setWidth_eq]

/-- With `b[0] = 1`, `b` is the odd byte value of its pair. -/
theorem ofNat_pair_odd {b : Byte} (h : b.getLsbD 0 = true) : BitVec.ofNat 8 (2 * (b.toNat / 2) + 1) = b := by
  have hodd : b.toNat % 2 = 1 := of_decide_eq_true ((getLsbD_zero_eq_decide b).symm.trans h)
  rw [show 2 * (b.toNat / 2) + 1 = b.toNat by omega, BitVec.ofNat_toNat, BitVec.setWidth_eq]

/-- `b[0]` picks the one of the pair that is `b`. -/
theorem nibble_pair (t : Tables) (b : Byte) :
    (if b.getLsbD 0 then t.nibble (BitVec.ofNat 8 (2 * (b.toNat / 2) + 1))
      else t.nibble (BitVec.ofNat 8 (2 * (b.toNat / 2)))) = t.nibble b := by
  split
  next hbit => rw [ofNat_pair_odd hbit]
  next hbit => rw [ofNat_pair_even (Bool.eq_false_iff.mpr hbit)]

/-- The packed form read in its own order gives the reverse table back (R90). -/
theorem lookup_pack (t : Tables) (o : PackOrder) (b : Byte) : (t.pack o).lookup o b = t.nibble b := by
  cases o with
  | evenHigh =>
    rw [PackedTable.lookup_evenHigh, stored_pack_evenHigh, Machine.highNibble_joinNibbles,
      Machine.lowNibble_joinNibbles, nibble_pair]
  | evenLow =>
    rw [PackedTable.lookup_evenLow, stored_pack_evenLow, Machine.highNibble_joinNibbles,
      Machine.lowNibble_joinNibbles, nibble_pair]

/-- A byte and its neighbour are stored in one byte (R90). -/
theorem PackedTable.stored_xor_one (pk : PackedTable) (b : Byte) : pk.stored (b ^^^ 1) = pk.stored b := by
  have hhalf : (b ^^^ 1).toNat / 2 = b.toNat / 2 := by simp [Nat.xor_div_two]
  simp only [PackedTable.stored, hhalf]

/-- A byte and its neighbour have different halves of one stored byte, and the other order swaps the halves. -/
theorem PackedTable.lookup_other_order {o o' : PackOrder} (h : o ≠ o') (pk : PackedTable) (b : Byte) :
    pk.lookup o' b = pk.lookup o (b ^^^ 1) := by
  have hbit : (b ^^^ 1).getLsbD 0 = !b.getLsbD 0 := by simp
  match o, o', h with
  | .evenHigh, .evenLow, _ =>
    rw [lookup_evenHigh, lookup_evenLow, stored_xor_one, hbit]
    cases b.getLsbD 0 <;> rfl
  | .evenLow, .evenHigh, _ =>
    rw [lookup_evenHigh, lookup_evenLow, stored_xor_one, hbit]
    cases b.getLsbD 0 <;> rfl
  | .evenHigh, .evenHigh, h => exact absurd rfl h
  | .evenLow, .evenLow, h => exact absurd rfl h

/-- The neighbour of `b` is `b` with bit 0 flipped. -/
theorem xor_one_eq_flipBit (b : Byte) : b ^^^ 1 = flipBit b (0 : Fin 8) := rfl

end Sys2Proof

namespace Sys2Proof.Machine

/-! ### What a command takes from the configuration -/

/-- A change of the state that a command does not look at, and that stays when the command sets the memory and returns
a result, goes through the command. -/
theorem exec_eq_mapNext {i : Instr} {s : State} {f : State → State}
    (hpolicy : (f s).cfg.oddLenPolicy = s.cfg.oddLenPolicy)
    (hmem : memoryAfter i (f s).cfg.tables (f s).mem = memoryAfter i s.cfg.tables s.mem)
    (hresult : completedResult (f s).cfg.tables i = completedResult s.cfg.tables i)
    (hf : ∀ m r, ((f s).setMem m).respond r = f ((s.setMem m).respond r)) :
    exec i (f s) = mapNext f (exec i s) := by
  rw [exec_eq, exec_eq, hpolicy, hmem, hresult, hf]
  cases refusalOf s.cfg.oddLenPolicy i <;> rfl

theorem State.withPackOrder_setMem_respond (s : State) (o : PackOrder) (m : Memory) (r : Result) :
    ((s.withPackOrder o).setMem m).respond r = ((s.setMem m).respond r).withPackOrder o := rfl

theorem State.withForwardTable_setMem_respond (s : State) (sym : Vector Byte 16) (m : Memory) (r : Result) :
    ((s.withForwardTable sym).setMem m).respond r = ((s.setMem m).respond r).withForwardTable sym := rfl

theorem exec_withPackOrder (i : Instr) (s : State) (o : PackOrder) :
    exec i (s.withPackOrder o) = mapNext (fun t => t.withPackOrder o) (exec i s) :=
  exec_eq_mapNext (f := fun t => t.withPackOrder o) rfl rfl rfl (s.withPackOrder_setMem_respond o)

/-- A command of which neither the memory nor the result depends on the forward table does the same with another. -/
theorem exec_withForwardTable {i : Instr} {s : State} {sym : Vector Byte 16}
    (hmem : memoryAfter i { s.cfg.tables with sym := sym } s.mem = memoryAfter i s.cfg.tables s.mem)
    (hresult : completedResult { s.cfg.tables with sym := sym } i = completedResult s.cfg.tables i) :
    exec i (s.withForwardTable sym) = mapNext (fun t => t.withForwardTable sym) (exec i s) :=
  exec_eq_mapNext (f := fun t => t.withForwardTable sym) rfl hmem hresult (s.withForwardTable_setMem_respond sym)

/-- `DECODE`'s loop looks up the reverse table alone (R92). -/
theorem memoryAfter_decode_of_other_sym (t : Tables) (sym : Vector Byte 16) (len cap src dst : Nat) (m : Memory) :
    memoryAfter (.decode len cap src dst) { t with sym := sym } m = memoryAfter (.decode len cap src dst) t m := rfl

/-- Settles O18: the other order reads the neighbour's result, and no command looks at the order. -/
theorem packingCarriesNoMeaning : Obligations.PackingCarriesNoMeaning := by
  have hother : ∀ (t : Tables) (o o' : PackOrder) (b : Byte), o ≠ o' →
      (t.pack o).lookup o' b = t.nibble (b ^^^ 1) := fun t o o' b hne => by
    rw [PackedTable.lookup_other_order hne, lookup_pack]
  refine ⟨lookup_pack, hother, fun t o o' n hne hcorrect => ?_, fun t t' o hpack b => ?_, exec_withPackOrder⟩
  · rw [hother t o o' _ hne, xor_one_eq_flipBit, hcorrect]
  · rw [← lookup_pack t o, hpack, lookup_pack]

/-- Settles O19: the result of `DEC_SYMBOL` and the memory `DECODE` leaves come of the reverse table alone. -/
theorem decodingIgnoresForwardTable : Obligations.DecodingIgnoresForwardTable :=
  fun s sym => ⟨fun _ => exec_withForwardTable rfl rfl, fun len cap src dst =>
    exec_withForwardTable (memoryAfter_decode_of_other_sym s.cfg.tables sym len cap src dst s.mem) rfl⟩

/-! ### `ENC_NIBBLE` and `DEC_SYMBOL` -/

theorem exec_encNibble (n : Nibble) (s : State) :
    exec (.encNibble n) s = .next (s.respond (.symOut (s.cfg.tables.symbol n))) := rfl

theorem exec_decSymbol (b : Byte) (s : State) :
    exec (.decSymbol b) s = .next (s.respond (.nibOut (s.cfg.tables.nibble b))) := rfl

/-- Settles O13: the result is the table's entry, of which two are fixed. -/
theorem encNibbleReturnsSymbol : Obligations.EncNibbleReturnsSymbol := by
  refine ⟨exec_encNibble, fun s ⟨hA, h5⟩ => ⟨?_, ?_⟩⟩
  · rw [exec_encNibble, hA]
  · rw [exec_encNibble, h5]

/-- Settles O14: the result is the table's entry, which the predicates over the tables describe. -/
theorem decSymbolReturnsNibble : Obligations.DecSymbolReturnsNibble := by
  have hcodeword : ∀ {s : State} {n : Nibble} {b : Byte}, s.cfg.tables.RoundTrip → s.cfg.tables.symbol n = b →
      exec (.decSymbol b) s = .next (s.respond (.nibOut n)) := fun hround hb => by
    rw [exec_decSymbol, Tables.nibble_of_symbol_eq hround hb]
  refine ⟨exec_decSymbol, fun n s hround => hcodeword hround rfl, ?_,
    fun b s hnear => ⟨_, exec_decSymbol b s, hnear b⟩⟩
  rintro s ⟨⟨hA, h5⟩, -, hround⟩
  exact ⟨hcodeword hround hA, hcodeword hround h5⟩

/-! ### Correction -/

/-- Under P3 a byte within `e` of a codeword is decoded to a codeword within `e` of it; the two codewords are then
within `2*e` of each other, so they are the same (R186). -/
theorem nibble_of_near {t : Tables} {e : Nat} (hnear : t.Nearest) (hdist : 2 * e + 1 ≤ t.minDist) {n : Nibble}
    {r : Byte} (hr : hammingDistance (t.symbol n) r ≤ e) : t.nibble r = n := by
  by_contra hne
  have hfar := (le_minDist_iff.mp hdist).2 n (t.nibble r) (Ne.symm hne)
  have hchosen := hnear r n
  have htri := hammingDistance_triangle (t.symbol n) r (t.symbol (t.nibble r))
  rw [hammingDistance_comm r (t.symbol n)] at hchosen
  omega

theorem singleBitCorrecting_of_nearest {t : Tables} (hnear : t.Nearest) (hdist : 3 ≤ t.minDist) :
    t.SingleBitCorrecting :=
  fun n k => nibble_of_near (e := 1) hnear hdist (hammingDistance_flipBit (t.symbol n) k).le

/-- A received sequence each symbol of which is decoded as the one sent is decoded to the data. -/
theorem dec_of_forall₂ {t : Tables} {R : Byte → Byte → Prop} (hR : ∀ {n r}, R (t.symbol n) r → t.nibble r = n)
    {bs rs : List Byte} (h : List.Forall₂ R (enc t bs) rs) : dec t rs = bs := by
  induction bs generalizing rs with
  | nil => cases h; rfl
  | cons b bs ih =>
    obtain _ | ⟨hhigh, _ | ⟨hlow, hrest⟩⟩ := h
    rw [dec, hR hhigh, hR hlow, joinNibbles_high_low, ih hrest]

/-- What a `DECODE` with room leaves in its destination is the decoding of its source (R123). -/
theorem readBytes_memoryAfter_decode {t : Tables} {m : Memory} (hm : m.wf) {len cap src dst : Nat}
    (hov : overlaps (decodeSourceSize len) cap src dst = false) (hcap : decodedSize len ≤ cap) :
    (memoryAfter (.decode len cap src dst) t m).readBytes dst (decodedSize len) = dec t (m.readBytes src len) := by
  have hi : refusalOf .ignoreTrailing (.decode len cap src dst) = none :=
    refusalOf_decode_eq_none_iff.mpr ⟨hov, .inr rfl⟩
  obtain ⟨-, hread⟩ := memoryAfter_spec (t := t) hm hi
  have hret := returnedCount_of_fits (capacityFails_eq_false_iff.mpr hcap)
  rw [dec_readBytes]
  refine List.map_congr_left fun k hk => ?_
  have hk : k < decodedSize len := List.mem_range.mp hk
  rw [hread, if_pos ⟨Nat.le_add_right dst k, by simpa [storedRegion, hret] using hk⟩]
  simp [storedRegion, storedByte]

/-- Settles O43: each received symbol is decoded as the one sent, by the least distance. -/
theorem conditionalCorrection : Obligations.ConditionalCorrection := by
  refine ⟨fun t e hnear hdist n r => nibble_of_near hnear hdist, fun t => singleBitCorrecting_of_nearest,
    fun s len cap src dst bs hm hnear hdist hlen hov hroom hreceived => ?_⟩
  have heven : len % 2 = 0 := by omega
  have hneed : decodedSize len = bs.length := by unfold decodedSize; omega
  have hov' : overlaps (decodeSourceSize len) cap src dst = false := overlaps_mono hov (decodeSourceSize_le len)
  have hcap : decodedSize len ≤ cap := hneed.trans_le hroom
  have hret : returnedCount (decodedSize len) cap = bs.length :=
    (returnedCount_of_fits (capacityFails_eq_false_iff.mpr hcap)).trans hneed
  refine ⟨_, exec_next_iff.mpr ⟨refusalOf_decode_eq_none_iff.mpr ⟨hov', .inl heven⟩, rfl⟩, ?_, ?_⟩
  · simp [completedResult, hret]
  · rw [← hneed]
    exact (readBytes_memoryAfter_decode hm hov' hcap).trans
      (dec_of_forall₂ (nibble_of_near (e := 1) hnear hdist) hreceived)

end Sys2Proof.Machine
end

section
/-! `ENC_SIZE` and `ENCODE` (spec/41_encode.md R100 to R103): the laws of `enc`, what `ENCODE` answers on either side of
the capacity guard, and what it leaves in its destination. -/

namespace Sys2Proof.Machine

/-! ### The function `enc` -/

theorem length_enc (t : Tables) (bs : List Byte) : (enc t bs).length = 2 * bs.length := by
  induction bs with
  | nil => rfl
  | cons b bs ih => simp only [enc, List.length_cons, ih]; omega

theorem enc_append (t : Tables) (xs ys : List Byte) : enc t (xs ++ ys) = enc t xs ++ enc t ys := by
  induction xs with
  | nil => rfl
  | cons b xs ih => simp only [List.cons_append, enc, ih]

theorem getElem?_enc_even (t : Tables) {bs : List Byte} {i : Nat} (h : i < bs.length) :
    (enc t bs)[2 * i]? = some (t.symbol (highNibble bs[i])) := by
  simp [getElem?_enc, h]

theorem getElem?_enc_odd (t : Tables) {bs : List Byte} {i : Nat} (h : i < bs.length) :
    (enc t bs)[2 * i + 1]? = some (t.symbol (lowNibble bs[i])) := by
  simp [getElem?_enc, h, show (2 * i + 1) / 2 = i by omega]

theorem encodeBuffer_of_lt (t : Tables) {src dst : List Byte} (h : dst.length < 2 * src.length) :
    encodeBuffer t src dst = (0, dst) :=
  if_pos (capacityFails_eq_true_iff.mpr h)

theorem encodeBuffer_of_le (t : Tables) {src dst : List Byte} (h : 2 * src.length ≤ dst.length) :
    encodeBuffer t src dst = (2 * src.length, enc t src ++ dst.drop (2 * src.length)) :=
  if_neg (Bool.eq_false_iff.mp (capacityFails_eq_false_iff.mpr h))

/-! ### What the commands answer -/

theorem exec_encSize (len : Nat) (s : State) : exec (.encSize len) s = .next (s.respond (.sizeOut (2 * len))) := rfl

/-- Without room `ENCODE` returns 0 and changes nothing else (R101). -/
theorem exec_encode_of_lt {len cap src dst : Nat} (s : State) (hov : overlaps len cap src dst = false)
    (hcap : cap < 2 * len) : exec (.encode len cap src dst) s = .next (s.respond (.ret 0)) := by
  have hfails : capacityFails (encodedSize len) cap = true := capacityFails_eq_true_iff.mpr hcap
  refine exec_next_iff.mpr ⟨refusalOf_encode_eq_none_iff.mpr hov, ?_⟩
  simp [memoryAfter, completedResult, hfails, returnedCount_of_fails]

/-- With room `ENCODE` returns twice its length and leaves what its loop leaves (R101, R102). -/
theorem exec_encode_of_le {len cap src dst : Nat} (s : State) (hov : overlaps len cap src dst = false)
    (hcap : 2 * len ≤ cap) : exec (.encode len cap src dst) s =
      .next ((s.setMem (encodeLoop s.cfg.tables len src dst s.mem)).respond (.ret (2 * len))) := by
  have hfits : capacityFails (encodedSize len) cap = false := capacityFails_eq_false_iff.mpr hcap
  refine exec_next_iff.mpr ⟨refusalOf_encode_eq_none_iff.mpr hov, ?_⟩
  simp only [memoryAfter, completedResult, hfits, returnedCount_of_fits hfits]
  rfl

/-! ### What the loop leaves in the destination -/

/-- A region is its first part followed by the rest. -/
theorem Memory.readBytes_add (m : Memory) (base n k : Nat) :
    m.readBytes base (n + k) = m.readBytes base n ++ m.readBytes (base + n) k := by
  simp [Memory.readBytes, List.range_add, Nat.add_assoc]

section
variable {m : Memory} (hm : m.wf) {len cap src dst : Nat} (hov : overlaps len cap src dst = false)
  (hcap : 2 * len ≤ cap)
include hm hov hcap

/-- Below `2*len` the destination holds the symbols of the source. -/
theorem read_encodeLoop_of_lt (t : Tables) {k : Nat} (hk : k < 2 * len) :
    (encodeLoop t len src dst m).read (dst + k) = encodedByte t m src k := by
  obtain ⟨-, hread⟩ := encodeLoop_spec (t := t) hm fun _ hj => source_not_in_destination hov hj hcap
  rw [hread, if_pos (by omega), Nat.add_sub_cancel_left]

/-- From `2*len` on the destination is as before. -/
theorem read_encodeLoop_of_le (t : Tables) {k : Nat} (hk : 2 * len ≤ k) :
    (encodeLoop t len src dst m).read (dst + k) = m.read (dst + k) := by
  obtain ⟨-, hread⟩ := encodeLoop_spec (t := t) hm fun _ hj => source_not_in_destination hov hj hcap
  rw [hread, if_neg (by omega)]

/-- The loop leaves the encoding of the source, followed by the destination's old tail (R103). -/
theorem readBytes_encodeLoop (t : Tables) : (encodeLoop t len src dst m).readBytes dst cap =
    enc t (m.readBytes src len) ++ (m.readBytes dst cap).drop (2 * len) := by
  have hhead : (encodeLoop t len src dst m).readBytes dst (2 * len) = enc t (m.readBytes src len) := by
    rw [enc_readBytes]
    exact List.map_congr_left fun k hk => read_encodeLoop_of_lt hm hov hcap t (List.mem_range.mp hk)
  have htail : ∀ n, (encodeLoop t len src dst m).readBytes (dst + 2 * len) n = m.readBytes (dst + 2 * len) n :=
    fun n => Memory.readBytes_eq_iff.mpr fun k _ => by
      rw [Nat.add_assoc, read_encodeLoop_of_le hm hov hcap t (Nat.le_add_right _ _)]
  obtain ⟨rest, rfl⟩ := Nat.exists_eq_add_of_le hcap
  rw [Memory.readBytes_add, hhead, htail, Memory.readBytes_add, List.drop_left' (Memory.length_readBytes m dst _)]

end

theorem isCodeword_encodedByte (t : Tables) (m : Memory) (src k : Nat) :
    t.isCodeword (encodedByte t m src k) = true :=
  isCodeword_iff.mpr ⟨_, rfl⟩

/-! ### The statements -/

/-- Settles O22: either side of the guard is a branch of `encodeBuffer`, and with room the loop leaves the encoding. -/
theorem encodeIsItsFunction : Obligations.EncodeIsItsFunction := by
  refine ⟨fun s len cap src dst hm hov => ?_, fun t bs i h => ⟨getElem?_enc_even t h, getElem?_enc_odd t h⟩,
    length_enc, enc_append, fun t => rfl⟩
  rcases Nat.lt_or_ge cap (2 * len) with hcap | hcap
  · refine ⟨_, exec_encode_of_lt s hov hcap, ?_⟩
    rw [encodeBuffer_of_lt _ (by simpa using hcap)]
    exact ⟨rfl, rfl⟩
  · refine ⟨_, exec_encode_of_le s hov hcap, ?_⟩
    rw [encodeBuffer_of_le _ (by simpa using hcap), Memory.length_readBytes]
    exact ⟨rfl, readBytes_encodeLoop hm hov hcap s.cfg.tables⟩

/-- Settles O23: the two sides of the guard, and the loop stores nothing from `2*len` on. -/
theorem encodeCapacityGuard : Obligations.EncodeCapacityGuard :=
  ⟨fun s _ _ _ _ hov hcap => exec_encode_of_lt s hov hcap, fun s _ _ _ _ hm hov hcap =>
    ⟨_, exec_encode_of_le s hov hcap, rfl, fun _ hk _ => read_encodeLoop_of_le hm hov hcap s.cfg.tables hk⟩⟩

/-- Settles O24: each byte stored is the symbol of a nibble of the source. -/
theorem encodeWritesCodewords : Obligations.EncodeWritesCodewords := by
  refine fun s len cap src dst hm hov hcap => ⟨_, exec_encode_of_le s hov hcap, fun k hk => ?_⟩
  rw [State.respond_mem, State.setMem_mem, read_encodeLoop_of_lt hm hov hcap _ hk]
  exact isCodeword_encodedByte _ _ _ _

/-- Settles O20: the size is exact, and a capacity that fits its port is below a need that does not. -/
theorem encSizeDoubles : Obligations.EncSizeDoubles := by
  refine ⟨exec_encSize, fun bits len hlen => ?_, fun bits => ?_, fun bits len cap src dst s hneed hcap hov => ?_⟩
  · rw [pow_succ]
    omega
  · rw [pow_succ]
    omega
  · exact exec_encode_of_lt s hov (hcap.trans_le hneed)

end Sys2Proof.Machine
end

section
/-! `DEC_SIZE` and `DECODE` (spec/42_decode.md R120 to R126): the laws of `dec`, what `DECODE` answers on either side of
the capacity guard, what it leaves in its destination, and the odd lengths. -/

namespace Sys2Proof.Machine

/-! ### The function `dec` -/

theorem length_dec (t : Tables) : ∀ ss : List Byte, (dec t ss).length = ss.length / 2
  | [] => rfl
  | [_] => by simp [dec]
  | s0 :: s1 :: ss => by simp only [dec, List.length_cons, length_dec t ss]; omega

/-- A sequence of even length ends with a whole pair, so the pairs of what follows are the same after it. -/
theorem dec_append (t : Tables) : ∀ {xs : List Byte} (ys : List Byte), xs.length % 2 = 0 →
    dec t (xs ++ ys) = dec t xs ++ dec t ys
  | [], _, _ => rfl
  | [_], _, h => absurd h Nat.one_ne_zero
  | s0 :: s1 :: xs, ys, h => by
    have hxs : xs.length % 2 = 0 := by simp only [List.length_cons] at h; omega
    simp only [List.cons_append, dec, dec_append t ys hxs]

theorem getElem?_dec_pair (t : Tables) {ss : List Byte} {j : Nat} (h : 2 * j + 1 < ss.length) :
    (dec t ss)[j]? = some (joinNibbles (t.nibble ss[2 * j]) (t.nibble ss[2 * j + 1])) := by
  simp [getElem?_dec, h, Nat.lt_of_succ_lt h]

theorem decodeBuffer_of_lt (t : Tables) {src dst : List Byte} (h : dst.length < src.length / 2) :
    decodeBuffer t src dst = (0, dst) :=
  if_pos (capacityFails_eq_true_iff.mpr h)

theorem decodeBuffer_of_le (t : Tables) {src dst : List Byte} (h : src.length / 2 ≤ dst.length) :
    decodeBuffer t src dst = (src.length / 2, dec t src ++ dst.drop (src.length / 2)) :=
  if_neg (Bool.eq_false_iff.mp (capacityFails_eq_false_iff.mpr h))

/-! ### What the commands answer -/

theorem exec_decSize (len : Nat) (s : State) : exec (.decSize len) s = .next (s.respond (.sizeOut (len / 2))) := rfl

theorem memoryAfter_decode_of_le {len cap : Nat} (hcap : len / 2 ≤ cap) (src dst : Nat) (t : Tables) (m : Memory) :
    memoryAfter (.decode len cap src dst) t m = decodeLoop t (len / 2) src dst m :=
  if_neg (Bool.eq_false_iff.mp (capacityFails_eq_false_iff.mpr hcap))

section
variable {s : State} {len cap src dst : Nat} (hlen : len % 2 = 0 ∨ s.cfg.oddLenPolicy = .ignoreTrailing)
  (hov : overlaps (decodeSourceSize len) cap src dst = false)
include hlen hov

/-- Without room an admitted `DECODE` returns 0 and changes nothing else (R121). -/
theorem exec_decode_of_lt (hcap : cap < len / 2) :
    exec (.decode len cap src dst) s = .next (s.respond (.ret 0)) := by
  have hfails : capacityFails (decodedSize len) cap = true := capacityFails_eq_true_iff.mpr hcap
  refine exec_next_iff.mpr ⟨refusalOf_decode_eq_none_iff.mpr ⟨hov, hlen⟩, ?_⟩
  simp [memoryAfter, completedResult, hfails, returnedCount_of_fails]

/-- With room an admitted `DECODE` returns half its length and leaves what its loop leaves (R121, R122). -/
theorem exec_decode_of_le (hcap : len / 2 ≤ cap) : exec (.decode len cap src dst) s =
    .next ((s.setMem (decodeLoop s.cfg.tables (len / 2) src dst s.mem)).respond (.ret (len / 2))) := by
  have hret : returnedCount (decodedSize len) cap = len / 2 :=
    returnedCount_of_fits (capacityFails_eq_false_iff.mpr hcap)
  refine exec_next_iff.mpr ⟨refusalOf_decode_eq_none_iff.mpr ⟨hov, hlen⟩, ?_⟩
  rw [memoryAfter_decode_of_le hcap, completedResult, hret]

end

/-! ### What the loop leaves in the destination -/

section
variable {m : Memory} (hm : m.wf) {len cap src dst : Nat} (hov : overlaps (decodeSourceSize len) cap src dst = false)
  (hcap : len / 2 ≤ cap)
include hm hov hcap

/-- The first `len/2` bytes of the destination are the decoding of the source (R123). -/
theorem readBytes_decodeLoop_head (t : Tables) :
    (decodeLoop t (len / 2) src dst m).readBytes dst (len / 2) = dec t (m.readBytes src len) := by
  rw [← memoryAfter_decode_of_le hcap]
  exact readBytes_memoryAfter_decode hm hov hcap

/-- Below `len/2` the destination holds the joined nibbles of the source's pairs. -/
theorem read_decodeLoop_of_lt (t : Tables) {j : Nat} (hj : j < len / 2) :
    (decodeLoop t (len / 2) src dst m).read (dst + j) = decodedByte t m src j := by
  have hhead := readBytes_decodeLoop_head hm hov hcap t
  rw [dec_readBytes] at hhead
  exact List.map_inj_left.mp hhead j (List.mem_range.mpr hj)

/-- From `len/2` on the destination is as before. -/
theorem read_decodeLoop_of_le (t : Tables) {k : Nat} (hk : len / 2 ≤ k) :
    (decodeLoop t (len / 2) src dst m).read (dst + k) = m.read (dst + k) := by
  obtain ⟨-, hread⟩ := decodeLoop_spec (t := t) (n := len / 2) hm fun _ hj => source_not_in_destination hov hj hcap
  rw [hread, if_neg (by omega)]

/-- The loop leaves the decoding of the source, followed by the destination's old tail (R123). -/
theorem readBytes_decodeLoop (t : Tables) : (decodeLoop t (len / 2) src dst m).readBytes dst cap =
    dec t (m.readBytes src len) ++ (m.readBytes dst cap).drop (len / 2) := by
  have htail : ∀ n, (decodeLoop t (len / 2) src dst m).readBytes (dst + len / 2) n = m.readBytes (dst + len / 2) n :=
    fun n => Memory.readBytes_eq_iff.mpr fun k _ => by
      rw [Nat.add_assoc, read_decodeLoop_of_le hm hov hcap t (Nat.le_add_right _ _)]
  have hhead := readBytes_decodeLoop_head hm hov hcap t
  obtain ⟨rest, rfl⟩ := Nat.exists_eq_add_of_le hcap
  rw [Memory.readBytes_add, hhead, htail, Memory.readBytes_add, List.drop_left' (Memory.length_readBytes m dst _)]

end

/-! ### Odd lengths -/

theorem decodedSize_pred_of_odd {len : Nat} (h : len % 2 = 1) : decodedSize (len - 1) = decodedSize len := by
  unfold decodedSize
  omega

theorem decodeSourceSize_pred_of_odd {len : Nat} (h : len % 2 = 1) :
    decodeSourceSize (len - 1) = decodeSourceSize len :=
  congrArg (2 * ·) (decodedSize_pred_of_odd h)

theorem oddRefused_of_ignoreTrailing {p : OddLenPolicy} (h : p = .ignoreTrailing) (len : Nat) :
    oddRefused p len = false :=
  oddRefused_eq_false_iff.mpr (.inr h)

theorem refusalOf_decode_of_odd {len : Nat} (h : len % 2 = 1) (cap src dst : Nat) :
    refusalOf .refuse (.decode len cap src dst) = some .oddLength :=
  if_pos (oddRefused_eq_true_iff.mpr ⟨h, rfl⟩)

section
variable {s : State} {len : Nat} (hodd : len % 2 = 1) (hpolicy : s.cfg.oddLenPolicy = .ignoreTrailing)
  (cap src dst : Nat)
include hodd hpolicy

/-- Under `ignore_trailing` a `DECODE` looks at its length through `decodedSize` only (R125). -/
theorem exec_decode_pred_of_odd :
    exec (.decode len cap src dst) s = exec (.decode (len - 1) cap src dst) s := by
  show execDecode len cap src dst s = execDecode (len - 1) cap src dst s
  rw [execDecode, execDecode, oddRefused_of_ignoreTrailing hpolicy, oddRefused_of_ignoreTrailing hpolicy,
    decodeSourceSize_pred_of_odd hodd, decodedSize_pred_of_odd hodd]

theorem accesses_decode_pred_of_odd :
    accesses (.decode len cap src dst) s = accesses (.decode (len - 1) cap src dst) s := by
  simp only [accesses, oddRefused_of_ignoreTrailing hpolicy, decodeSourceSize_pred_of_odd hodd,
    decodedSize_pred_of_odd hodd]

end

/-- Whatever its length, a `DECODE` reads whole pairs of its source only (R122). -/
theorem sourceRead_decode_lt {s : State} {len cap src dst o : Nat} {a : Access}
    (ha : a ∈ accesses (.decode len cap src dst) s) (ho : a.sourceRead? = some o) : o < decodeSourceSize len := by
  cases hi : refusalOf s.cfg.oddLenPolicy (.decode len cap src dst) with
  | some r => rw [accesses_of_refused hi] at ha; cases ha
  | none =>
    obtain ⟨hov, hlen⟩ := refusalOf_decode_eq_none_iff.mp hi
    rw [accesses_decode hlen hov] at ha
    split at ha
    · cases ha
    · have hread := List.mem_filterMap.mpr ⟨a, ha, ho⟩
      rw [sourceReads_decode] at hread
      exact List.mem_range.mp hread

/-! ### The statements -/

/-- Settles O25: either side of the guard is a branch of `decodeBuffer`, and with room the loop leaves the decoding. -/
theorem decodeIsItsFunction : Obligations.DecodeIsItsFunction := by
  refine ⟨fun s len cap src dst hm heven hov => ?_, fun t ss j => getElem?_dec_pair t, fun t ss _ => length_dec t ss,
    fun t xs ys => dec_append t ys, fun t => rfl⟩
  have hov' := overlaps_mono hov (decodeSourceSize_le len)
  rcases Nat.lt_or_ge cap (len / 2) with hcap | hcap
  · refine ⟨_, exec_decode_of_lt (.inl heven) hov' hcap, ?_⟩
    rw [decodeBuffer_of_lt _ (by simpa using hcap)]
    exact ⟨rfl, rfl⟩
  · refine ⟨_, exec_decode_of_le (.inl heven) hov' hcap, ?_⟩
    rw [decodeBuffer_of_le _ (by simpa using hcap), Memory.length_readBytes]
    exact ⟨rfl, readBytes_decodeLoop hm hov' hcap s.cfg.tables⟩

/-- Settles O26: the two sides of the guard, and the loop stores nothing from `len/2` on. -/
theorem decodeCapacityGuard : Obligations.DecodeCapacityGuard := by
  refine ⟨fun s len cap src dst hlen hov hcap => ?_, fun s len cap src dst hm hlen hov hcap => ?_⟩
  all_goals have hov' := overlaps_mono hov (decodeSourceSize_le len)
  · exact exec_decode_of_lt hlen hov' hcap
  · exact ⟨_, exec_decode_of_le hlen hov' hcap, rfl, fun k hk _ => read_decodeLoop_of_le hm hov' hcap _ hk⟩

/-- Settles O27: `refuse` names the length before anything else, and `ignore_trailing` has the pairs of the first
`len - 1` bytes, which end before the last byte. -/
theorem decodeOddLength : Obligations.DecodeOddLength := by
  refine ⟨fun s len cap src dst hodd hpolicy => ?_, fun s len cap src dst hodd hpolicy => ?_⟩
  · exact ⟨.oddLength, exec_refused_iff.mpr (hpolicy ▸ refusalOf_decode_of_odd hodd cap src dst), fun _ => rfl⟩
  · refine ⟨exec_decode_pred_of_odd hodd hpolicy cap src dst, fun hov => ?_,
      accesses_decode_pred_of_odd hodd hpolicy cap src dst, fun a ha hlast => ?_⟩
    · rw [← decodeSourceSize_of_odd hodd] at hov
      exact ⟨_, exec_next_iff.mpr ⟨refusalOf_decode_eq_none_iff.mpr ⟨hov, .inr hpolicy⟩, rfl⟩⟩
    · have hlt := sourceRead_decode_lt ha hlast
      rw [decodeSourceSize_of_odd hodd] at hlt
      exact lt_irrefl _ hlt

/-- Settles O28: the table has a nibble for every byte, and with room the loop joins those of each pair. -/
theorem decodeNeverFailsOnContent : Obligations.DecodeNeverFailsOnContent := by
  refine ⟨fun b s => ⟨_, exec_decSymbol b s⟩, fun s len cap src dst hm heven hov hcap => ?_⟩
  have hov' := overlaps_mono hov (decodeSourceSize_le len)
  exact ⟨_, exec_decode_of_le (.inl heven) hov' hcap, rfl, fun j hj => read_decodeLoop_of_lt hm hov' hcap _ hj⟩

/-- Settles O21: halving loses the last bit of the length, and nothing of a length that was doubled. -/
theorem decSizeHalves : Obligations.DecSizeHalves := by
  refine ⟨exec_decSize, fun bits len hbits hlen => ?_, fun n => ?_, fun n => ?_⟩
  · obtain ⟨b, rfl⟩ := Nat.exists_eq_add_of_le' hbits
    rw [pow_succ] at hlen
    rw [Nat.add_sub_cancel]
    omega
  · exact Nat.mul_div_cancel_left n Nat.two_pos
  · unfold encodedSize decodedSize
    split <;> omega

end Sys2Proof.Machine
end

section
/-! The laws of the codec (spec/43_properties.md R180 to R189): the two functions are inverse on clean data, the two
commands in sequence give the data back, sizes and capacities, and what a changed source byte changes. -/

namespace Sys2Proof.Machine

/-! ### `enc` and `dec` composed -/

/-- Decoding undoes encoding: each symbol gives back its nibble (R180). -/
theorem dec_enc {t : Tables} (h : t.RoundTrip) (bs : List Byte) : dec t (enc t bs) = bs := by
  induction bs with
  | nil => rfl
  | cons b bs ih => rw [enc, dec, h, h, joinNibbles_high_low, ih]

/-- Re-encoding a decoded sequence of whole pairs gives the codeword chosen for each byte (R189 (d)). -/
theorem enc_dec (t : Tables) : ∀ {es : List Byte}, es.length % 2 = 0 →
    enc t (dec t es) = es.map fun b => t.symbol (t.nibble b)
  | [], _ => rfl
  | [_], h => absurd h Nat.one_ne_zero
  | e0 :: e1 :: es, h => by
    have hes : es.length % 2 = 0 := by simp only [List.length_cons] at h; omega
    simp only [dec, enc, highNibble_joinNibbles, lowNibble_joinNibbles, enc_dec t hes, List.map_cons]

/-- Where no two nibbles share a symbol, each pair of symbols comes of one byte only (R189 (c)). -/
theorem enc_injective {t : Tables} (h : t.Injective) : Function.Injective (enc t) := by
  intro xs ys heq
  induction xs generalizing ys with
  | nil =>
    cases ys with
    | nil => rfl
    | cons y ys => cases heq
  | cons x xs ih =>
    cases ys with
    | nil => cases heq
    | cons y ys =>
      simp only [enc, List.cons.injEq] at heq
      obtain ⟨hhigh, hlow, hrest⟩ := heq
      rw [byte_ext (h.symbol_injective hhigh) (h.symbol_injective hlow), ih hrest]

/-- Settles O45: `enc` gives each byte a pair of symbols of its own, and `enc ∘ dec` is the decoder's choice byte by
byte. -/
theorem encodingInjective : Obligations.EncodingInjective := by
  refine ⟨fun t xs ys h heq => enc_injective h heq, fun t es h heven => ⟨dec_enc h _, ?_, fun k _ => ?_⟩⟩
  · rw [enc_dec t heven, List.length_map]
  · rw [enc_dec t heven, List.getElem?_map]

/-! ### What the two commands leave where there is room -/

/-- With room `ENCODE` leaves the encoding of its source, in canonical memory. -/
theorem exec_encode_leaves_enc {s : State} {len cap src dst : Nat} (hm : s.mem.wf)
    (hov : overlaps len cap src dst = false) (hcap : 2 * len ≤ cap) :
    ∃ t, exec (.encode len cap src dst) s = .next t ∧ t.cfg = s.cfg ∧ t.mem.wf ∧
      t.results = s.results ++ [.ret (2 * len)] ∧
      t.mem.readBytes dst (2 * len) = enc s.cfg.tables (s.mem.readBytes src len) := by
  refine ⟨_, exec_encode_of_le s hov hcap, rfl, wf_encodeLoop hm, rfl, ?_⟩
  rw [enc_readBytes]
  exact List.map_congr_left fun k hk => read_encodeLoop_of_lt hm hov hcap _ (List.mem_range.mp hk)

/-- With room `DECODE` of `2 * n` bytes leaves the decoding of its source. -/
theorem exec_decode_leaves_dec {s : State} {n cap src dst : Nat} (hm : s.mem.wf)
    (hov : overlaps (2 * n) cap src dst = false) (hcap : n ≤ cap) :
    ∃ t, exec (.decode (2 * n) cap src dst) s = .next t ∧ t.results = s.results ++ [.ret n] ∧
      t.mem.readBytes dst n = dec s.cfg.tables (s.mem.readBytes src (2 * n)) := by
  have hhalf : 2 * n / 2 = n := Nat.mul_div_cancel_left n Nat.two_pos
  have hov' := overlaps_mono hov (decodeSourceSize_le (2 * n))
  have hexec := exec_decode_of_le (s := s) (.inl (Nat.mul_mod_right 2 n)) hov' (hhalf.trans_le hcap)
  have hdec := readBytes_decodeLoop_head hm hov' (hhalf.trans_le hcap) s.cfg.tables
  rw [hhalf] at hexec hdec
  exact ⟨_, hexec, rfl, hdec⟩

/-- Settles O38: `DECODE` finds in the middle buffer what `ENCODE` left there, and decoding undoes encoding. -/
theorem cleanRoundTrip : Obligations.CleanRoundTrip := by
  refine ⟨fun t bs h => dec_enc h bs, fun s len cap₁ cap₂ src mid dst hm hround hov₁ hov₂ hcap₁ hcap₂ => ?_⟩
  obtain ⟨t, hencode, hcfg, ht, hret, hmid⟩ := exec_encode_leaves_enc hm hov₁ hcap₁
  obtain ⟨u, hdecode, hret', hdst⟩ := exec_decode_leaves_dec ht hov₂ hcap₂
  refine ⟨t, u, hencode, hret, hmid, hdecode, hret', ?_⟩
  rw [hdst, hmid, hcfg, dec_enc hround]

/-- Settles O42: the fixed entries are the symbols of the two nibbles of `0xA5`, and clean data comes back. -/
theorem documentScenario : Obligations.DocumentScenario := by
  have henc : ∀ {t : Tables}, t.Fixed → enc t [0xA5] = [0xAA, 0x55] := fun ⟨hA, h5⟩ => by
    rw [enc, show highNibble 0xA5 = 0xA from rfl, show lowNibble 0xA5 = 0x5 from rfl, hA, h5, enc]
  refine ⟨fun s src dst hm hfixed hsrc hov => ?_, fun s src dst hm hfixed hround hsrc hov => ?_⟩
  · obtain ⟨t, hexec, -, -, hret, hdst⟩ := exec_encode_leaves_enc (len := 1) hm hov le_rfl
    exact ⟨t, hexec, hret, by rw [hdst, hsrc, henc hfixed]⟩
  · obtain ⟨t, hexec, hret, hdst⟩ := exec_decode_leaves_dec (n := 1) hm hov le_rfl
    exact ⟨t, hexec, hret, by rw [hdst, hsrc, ← henc hfixed, dec_enc hround]⟩

/-! ### Sizes and capacities -/

/-- Settles O39: with room a buffer command returns its need, which is what the size command returns. -/
theorem sizeLaws : Obligations.SizeLaws := by
  refine ⟨length_enc, fun t ss _ => length_dec t ss, fun s len cap src dst hov hcap => ?_,
    fun s len cap src dst heven hov hcap => ?_⟩
  · exact ⟨_, _, exec_encode_of_le s hov hcap, rfl, exec_encSize len s⟩
  · have hov' := overlaps_mono hov (decodeSourceSize_le len)
    exact ⟨_, _, exec_decode_of_le (.inl heven) hov' hcap, rfl, exec_decSize len s⟩

/-- A command whose answer is known has returned the result of that answer. -/
theorem completedResult_of_exec_eq {i : Instr} {s : State} {r : Result} (h : exec i s = .next (s.respond r)) :
    completedResult s.cfg.tables i = r := by
  obtain ⟨-, hanswer⟩ := exec_next_iff.mp h
  simpa [eq_comm] using congrArg State.results hanswer

/-- Where there is something to write, `RET = 0` says that the capacity is below the need (R183). -/
theorem lt_need_of_ret_zero {need cap : Nat} (hneed : 0 < need)
    (h : Result.ret (returnedCount need cap) = .ret 0) : cap < need :=
  capacityFails_eq_true_iff.mp (capacityFails_iff_returnedCount_eq_zero.mpr ⟨Result.ret.inj h, hneed⟩)

/-- Settles O40: below the need the guard answers 0, and an answer of 0 where there is a need is the guard's. -/
theorem oneByteShort : Obligations.OneByteShort := by
  refine ⟨fun s len src dst hlen hov => ?_, fun s len src dst hlen heven hov => ?_,
    fun s len cap src dst hlen hov => ⟨fun h => ?_, exec_encode_of_lt s hov⟩,
    fun s len cap src dst hlen heven hov => ⟨fun h => ?_, ?_⟩⟩
  · exact exec_encode_of_lt s hov (by omega)
  · exact exec_decode_of_lt (.inl heven) (overlaps_mono hov (decodeSourceSize_le len)) (by omega)
  · have hneed : 0 < encodedSize len := by unfold encodedSize; omega
    exact lt_need_of_ret_zero hneed (completedResult_of_exec_eq h)
  · have hneed : 0 < decodedSize len := by unfold decodedSize; omega
    exact lt_need_of_ret_zero hneed (completedResult_of_exec_eq h)
  · exact exec_decode_of_lt (.inl heven) (overlaps_mono hov (decodeSourceSize_le len))

/-- An empty source overlaps nothing (R55). -/
theorem overlaps_zero (cap src dst : Nat) : overlaps 0 cap src dst = false :=
  overlaps_eq_false_iff.mpr fun _ hsrc hsrc' => absurd hsrc' (Nat.not_lt.mpr hsrc)

/-- Settles O41: an empty source overlaps nothing, needs no room, and leaves the loop no iteration. -/
theorem emptyInput : Obligations.EmptyInput := by
  intro s cap src dst
  have hov := overlaps_zero cap src dst
  refine ⟨exec_encode_of_le s hov (Nat.zero_le cap), exec_decode_of_le (.inl rfl) hov (Nat.zero_le cap), ?_, ?_, ?_, ?_⟩
  · simp [tableOutcome, hov]
  · simp [tableOutcome, decodeSourceSize_of_even, hov]
  · rw [accesses_encode hov]
    exact ite_self []
  · rw [accesses_decode (len := 0) (.inl rfl) hov]
    exact ite_self []

/-! ### A changed source byte -/

/-- After one write to memory a command leaves at every other address what it left there before the write, as far as
`f` sees, if `f` sees no change in the byte that the command stores there. -/
theorem read_exec_write {α : Type} (f : Byte → α) {i : Instr} {s t t' : State} (hm : s.mem.wf) {a b : Nat} {v : Byte}
    (h : exec i s = .next t) (h' : exec i (s.setMem (s.mem.write b v)) = .next t') (hne : a ≠ b)
    (hstored : (storedRegion i).holds a →
      f (storedByte i s.cfg.tables (s.mem.write b v) (a - (storedRegion i).base)) =
        f (storedByte i s.cfg.tables s.mem (a - (storedRegion i).base))) :
    f (t'.mem.read a) = f (t.mem.read a) := by
  obtain ⟨hi, rfl⟩ := exec_next_iff.mp h
  obtain ⟨-, rfl⟩ := exec_next_iff.mp h'
  obtain ⟨-, hread⟩ := memoryAfter_spec (t := s.cfg.tables) hm hi
  obtain ⟨-, hread'⟩ := memoryAfter_spec (t := s.cfg.tables) (Memory.wf_write hm b v) hi
  simp only [State.respond_mem, State.setMem_mem, State.setMem_cfg, hread, hread']
  split
  next hin => exact hstored hin
  next => rw [Memory.read_write_ne hm v hne]

section
variable {m : Memory} (hm : m.wf) (t : Tables) (src : Nat) {i : Nat} (v : Byte)
include hm

theorem read_write_offset_ne {k : Nat} (h : k ≠ i) : (m.write (src + i) v).read (src + k) = m.read (src + k) :=
  Memory.read_write_ne hm v (by omega)

/-- An encoded byte is made of the source byte at half its offset. -/
theorem encodedByte_write {k : Nat} (h : k / 2 ≠ i) :
    encodedByte t (m.write (src + i) v) src k = encodedByte t m src k := by
  rw [encodedByte, read_write_offset_ne hm src v h, encodedByte]

/-- The high nibble of a decoded byte is made of the even source byte of its pair. -/
theorem highNibble_decodedByte_write {j : Nat} (h : 2 * j ≠ i) :
    highNibble (decodedByte t (m.write (src + i) v) src j) = highNibble (decodedByte t m src j) := by
  simp only [decodedByte, highNibble_joinNibbles, read_write_offset_ne hm src v h]

/-- The low nibble of a decoded byte is made of the odd source byte of its pair. -/
theorem lowNibble_decodedByte_write {j : Nat} (h : 2 * j + 1 ≠ i) :
    lowNibble (decodedByte t (m.write (src + i) v) src j) = lowNibble (decodedByte t m src j) := by
  simp only [decodedByte, lowNibble_joinNibbles, read_write_offset_ne hm src v h]

/-- A decoded byte is made of its pair of source bytes. -/
theorem decodedByte_write {j : Nat} (h : j ≠ i / 2) :
    decodedByte t (m.write (src + i) v) src j = decodedByte t m src j :=
  byte_ext (highNibble_decodedByte_write hm t src v (by omega)) (lowNibble_decodedByte_write hm t src v (by omega))

end

/-- A source address of a command that does not overlap is no address of its destination. -/
theorem destination_ne_source {len cap src dst i k : Nat} (h : overlaps len cap src dst = false) (hi : i < len)
    (hk : k < cap) : dst + k ≠ src + i := by
  have := source_not_in_destination h hi (le_refl cap)
  omega

/-- Settles O44: a stored byte is made of the source bytes of its pair or of half its offset, each nibble of a decoded
byte of one of them; every other byte is as before. -/
theorem changesStayLocal : Obligations.ChangesStayLocal := by
  refine ⟨fun s t t' len cap src dst i v hm hi h h' k hk hhigh hlow => ?_,
    fun s t t' len cap src dst i v hm hi h h' => ?_, fun s t t' len cap src dst i v hm hi _ h h' a hne => ?_⟩
  · obtain ⟨hnone, -⟩ := exec_next_iff.mp h
    have hov := refusalOf_encode_eq_none_iff.mp hnone
    refine read_exec_write id hm h h' (destination_ne_source hov hi hk) fun _ => ?_
    exact encodedByte_write hm _ src v (by simp only [storedRegion]; omega)
  · obtain ⟨hnone, -⟩ := exec_next_iff.mp h
    obtain ⟨hov, -⟩ := refusalOf_decode_eq_none_iff.mp hnone
    refine ⟨fun k hk hne => ?_, fun hk heven => ?_, fun hk hodd => ?_⟩
    · refine read_exec_write id hm h h' (destination_ne_source hov hi hk) fun _ => ?_
      exact decodedByte_write hm _ src v (by simp only [storedRegion]; omega)
    · refine read_exec_write lowNibble hm h h' (destination_ne_source hov hi hk) fun _ => ?_
      exact lowNibble_decodedByte_write hm _ src v (by simp only [storedRegion]; omega)
    · refine read_exec_write highNibble hm h h' (destination_ne_source hov hi hk) fun _ => ?_
      exact highNibble_decodedByte_write hm _ src v (by simp only [storedRegion]; omega)
  · refine read_exec_write id hm h h' hne fun ⟨hlo, hlt⟩ => ?_
    have hret := returnedCount_le_need (decodedSize len) cap
    simp only [storedRegion, decodeSourceSize] at hi hlo hlt ⊢
    exact decodedByte_write hm _ src v (by omega)

end Sys2Proof.Machine
end

section
/-! The table of outcomes (spec/60_exceptions.md R157): its rows are the refusals and the capacity guard that decide what
`exec` answers. -/

namespace Sys2Proof.Machine

/-! ### The rows of the table -/

/-- The capacity guard of a command (R101, R121); the four small commands have none (R157). -/
def lacksRoom : Instr → Bool
  | .encode len cap _ _ => capacityFails (encodedSize len) cap
  | .decode len cap _ _ => capacityFails (decodedSize len) cap
  | _ => false

/-- The table looks at the conditions in the order of the checks: the refusals, then the capacity guard (R146, R157). -/
theorem tableOutcome_eq (p : OddLenPolicy) (i : Instr) :
    tableOutcome p i = if (refusalOf p i).isSome then .refused
      else if lacksRoom i then .failsOnCapacity else .succeeds := by
  cases i with
  | encode len cap src dst =>
    cases hov : overlaps len cap src dst <;> simp [tableOutcome, refusalOf, lacksRoom, encodedSize, hov]
  | decode len cap src dst =>
    simp only [tableOutcome, ← oddRefused_eq_true_iff]
    cases hodd : oddRefused p len with
    | true => simp [refusalOf, hodd]
    | false =>
      cases hov : overlaps (decodeSourceSize len) cap src dst <;>
        simp [refusalOf, lacksRoom, decodedSize, hodd, hov]
  | _ => rfl

theorem tableOutcome_eq_refused_iff {p : OddLenPolicy} {i : Instr} :
    tableOutcome p i = .refused ↔ ∃ r, refusalOf p i = some r := by
  rw [tableOutcome_eq, ← Option.isSome_iff_exists]
  cases refusalOf p i <;> cases lacksRoom i <;> simp

theorem tableOutcome_eq_failsOnCapacity_iff {p : OddLenPolicy} {i : Instr} :
    tableOutcome p i = .failsOnCapacity ↔ refusalOf p i = none ∧ lacksRoom i = true := by
  rw [tableOutcome_eq]
  cases refusalOf p i <;> cases lacksRoom i <;> simp

theorem tableOutcome_eq_succeeds_iff {p : OddLenPolicy} {i : Instr} :
    tableOutcome p i = .succeeds ↔ refusalOf p i = none ∧ lacksRoom i = false := by
  rw [tableOutcome_eq]
  cases refusalOf p i <;> cases lacksRoom i <;> simp

/-! ### What a command does with and without room -/

/-- Only a buffer command can lack room, and then it returns 0 (R141). -/
theorem completedResult_of_lacksRoom {i : Instr} (h : lacksRoom i = true) (t : Tables) :
    completedResult t i = .ret 0 := by
  cases i with
  | encode => exact congrArg Result.ret (returnedCount_of_fails h)
  | decode => exact congrArg Result.ret (returnedCount_of_fails h)
  | _ => cases h

/-- Without room the memory stays as it is (R141). -/
theorem memoryAfter_of_lacksRoom {i : Instr} (h : lacksRoom i = true) (t : Tables) (m : Memory) :
    memoryAfter i t m = m := by
  cases i with
  | encode => exact if_pos h
  | decode => exact if_pos h
  | _ => cases h

/-- With room a command returns the result of its rule. -/
theorem completedResult_of_hasRoom {i : Instr} (h : lacksRoom i = false) (t : Tables) :
    completedResult t i = successResult t i := by
  cases i with
  | encode => exact congrArg Result.ret (returnedCount_of_fits h)
  | decode => exact congrArg Result.ret (returnedCount_of_fits h)
  | _ => rfl

/-! ### What the machine answers -/

theorem exec_of_failsOnCapacity {i : Instr} {s : State} (h : tableOutcome s.cfg.oddLenPolicy i = .failsOnCapacity) :
    exec i s = .next (s.respond (.ret 0)) := by
  obtain ⟨hi, hroom⟩ := tableOutcome_eq_failsOnCapacity_iff.mp h
  refine exec_next_iff.mpr ⟨hi, ?_⟩
  rw [memoryAfter_of_lacksRoom hroom, completedResult_of_lacksRoom hroom, State.setMem_self]

theorem exec_of_succeeds {i : Instr} {s : State} (h : tableOutcome s.cfg.oddLenPolicy i = .succeeds) :
    exec i s =
      .next ((s.setMem (memoryAfter i s.cfg.tables s.mem)).respond (successResult s.cfg.tables i)) := by
  obtain ⟨hi, hroom⟩ := tableOutcome_eq_succeeds_iff.mp h
  exact exec_next_iff.mpr ⟨hi, by rw [completedResult_of_hasRoom hroom]⟩

/-- No step faults: there is no fault for it to answer (R140). -/
theorem step_cases (s : State) : (∃ t, step s = .next t) ∨ ∃ r, step s = .refused r := by
  cases step s with
  | next t => exact .inl ⟨t, rfl⟩
  | fault f => cases f
  | refused r => exact .inr ⟨r, rfl⟩

/-- Settles O29: the table's refusals are those of `exec`, and its capacity column is the guard that chooses between the
result of the command's rule and 0. -/
theorem outcomesMatchTable : Obligations.OutcomesMatchTable :=
  ⟨fun _ _ h => ⟨_, exec_of_succeeds h, rfl⟩,
    fun _ _ => exec_of_failsOnCapacity,
    fun _ _ h => (tableOutcome_eq_refused_iff.mp h).imp fun _ => exec_refused_iff.mpr,
    fun _ _ _ hin hres => ⟨_, step_of_rejected hin (accept_of_reserved hres)⟩,
    step_cases⟩

end Sys2Proof.Machine
end

section
/-! The host's own stores and the idle block (spec/70_reset_and_hazards.md R160, R167, R172). -/

namespace Sys2Proof.Machine

/-! ### What memory holds after a sequence was stored -/

/-- The region a sequence was stored to holds it. -/
theorem Memory.readBytes_writeBytes {m : Memory} (hm : m.wf) (base : Nat) (bs : List Byte) :
    (m.writeBytes base bs).readBytes base bs.length = bs :=
  Memory.readBytes_eq rfl fun k hk => by simp [Memory.read_writeBytes hm, hk]

/-- A stored sequence leaves every address outside its region alone. -/
theorem Memory.read_writeBytes_outside {m : Memory} (hm : m.wf) {base a : Nat} {bs : List Byte}
    (ha : ¬ (base ≤ a ∧ a < base + bs.length)) : (m.writeBytes base bs).read a = m.read a := by
  rw [Memory.read_writeBytes hm]
  split
  next hbase =>
    have hpast : bs.length ≤ a - base := by omega
    rw [List.getElem?_eq_none hpast, Option.getD_none]
  next => rfl

/-- Settles O7: without an input the step is idle; a store replaces the memory by the one with its bytes written, whose
reads are known inside and outside the region written. -/
theorem idleAndHostStore : Obligations.IdleAndHostStore := by
  refine ⟨fun _ => step_of_nil, fun s addr bytes rest hin hm => ?_⟩
  exact ⟨_, step_of_store hin, rfl, rfl, rfl, Memory.readBytes_writeBytes hm addr bytes,
    fun _ => Memory.read_writeBytes_outside hm⟩

end Sys2Proof.Machine
end
